-- ==== Sys2Proof/Word.lean ====
section
/-! DEFINITION. The widths of the spec: a byte (R8), the 16-bit checksum word (R12), the 4-bit frame offset (R13), and
the client's timestamp, whose width is the open parameter TS_WIDTH of the environment (R7). -/

namespace Sys2Proof

/-- 8 bits, unsigned (R8). -/
abbrev Byte := BitVec 8

/-- 16 bits, unsigned: the checksum and the two-byte fields of the frame (R8, R12). -/
abbrev Half := BitVec 16

/-- A frame offset, 0 to 15 (R13). -/
abbrev Offset := BitVec 4

/-- TS_WIDTH of R7 and 92_eei_decisions.md D19, the width of a millisecond timestamp: open in the spec, so a constant
without a body (log 13). It stands here, and not with the other parameters of Config, because types depend on it. -/
opaque Config.tsWidth : Nat

/-- A millisecond timestamp of the Clock (R123), unsigned. -/
abbrev Timestamp := BitVec Config.tsWidth

end Sys2Proof
end

