-- ==== Sys2Proof/Syntax.lean ====
section
/-! DEFINITION. What a host can ask of the framer: the command (R9, R106), the instruction with one constructor for
each row of spec/opcode_table.json (R58, R59), and the calls of the client software (R105 to R122). -/

namespace Sys2Proof

/-- The tuple "(mode, startColor, endColor, cycles:0–255)" of R9 and R106: four bytes, any value (R54, R56). -/
structure Command where
  mode : Byte
  startColour : Byte
  endColour : Byte
  cycles : Byte
  deriving DecidableEq, Repr, Inhabited

/-- One constructor for each row of the opcode table. -/
inductive Instr where
  /-- `SET_LED mode, start, end, cycles` (R58, R70). -/
  | setLed (mode startColour endColour cycles : Byte)
  /-- `SET_LED.ON start, end, cycles`: SET_LED with the mode byte 0x03, "not a second instruction" (R59). -/
  | setLedOn (startColour endColour cycles : Byte)
  deriving DecidableEq, Repr, Inhabited

/-- The six mode names of R59. -/
inductive ModeName where
  | breathing | flash | on | off | fadeIn | fadeOut
  deriving DecidableEq, Repr, Inhabited

/-- The three primary colours of R60. -/
inductive Primary where
  | red | green | blue
  deriving DecidableEq, Repr, Inhabited

/-- The two halves of an emulated blink cycle (R9 "Phase (of a blink)", R108). -/
inductive BlinkPhase where
  | on | off
  deriving DecidableEq, Repr, Inhabited

/-- BlinkState of R108; `phaseStart` is `lastTransitionTimestamp` (90_conflicts.md C3). A timestamp has the open width
TS_WIDTH of R7; the widths of the durations are not in the spec, and they are natural numbers of milliseconds
(log 13). -/
structure BlinkState where
  active : Bool
  colour : Byte
  onMs : Nat
  offMs : Nat
  phase : BlinkPhase
  phaseStart : Timestamp
  deriving DecidableEq, Repr, Inhabited

/-- One call of the client software (R110 to R122). Times are handed in by the caller, as `poll(now)` is in R112;
`start` reads the Clock of R123, so its timestamp stands beside its operands. The spec gives no width to a repetition count
(`n` of R119, `cycles` of R116 and R122); that it is a natural number without bound is the model's DESIGN CHOICE (log 13). -/
inductive ClientOp where
  /-- `setColor(color)` (R62, R106). -/
  | setColor (colour : Byte)
  /-- `off()` (R62, R106). -/
  | off
  /-- `start(color, onMs, offMs)` at time `now` (R110). -/
  | start (colour : Byte) (onMs offMs : Nat) (now : Timestamp)
  /-- `stop()` (R111). -/
  | stop
  /-- `poll(now)` (R112). -/
  | poll (now : Timestamp)
  /-- `runFixedCycles(color, onMs, offMs, cycles)` (R116). -/
  | runFixedCycles (colour : Byte) (onMs offMs cycles : Nat)
  /-- `flashBlocking(color, onMs, offMs, n)` (R119). -/
  | flashBlocking (colour : Byte) (onMs offMs n : Nat)
  /-- `colorCycle(colors[], stepMs)` (R120). -/
  | colorCycle (colours : List Byte) (stepMs : Nat)
  /-- `fadeIn(color)` (R121). -/
  | fadeIn (colour : Byte)
  /-- `fadeOut(color)` (R121). -/
  | fadeOut (colour : Byte)
  /-- `breathingFixedCycles(color, perCycleMs, cycles)` (R122). -/
  | breathingFixedCycles (colour : Byte) (perCycleMs cycles : Nat)
  deriving DecidableEq, Repr, Inhabited

end Sys2Proof
end

