-- ==== Sys2Proof/Config.lean ====
section
/-! DEFINITION. The hardwired constants of the framer (R6, R17), the parameters of the environment that the spec leaves
open (R7, 92_eei_decisions.md D19), and the free values. A constant declared opaque has no body: nothing can prove
which value it is. -/

namespace Sys2Proof.Config

/-! ### Constants of the table of R6 -/

/-- HEADER (R6). -/
def header : Half := 0xEF01#16
/-- ADDRESS, "broadcast" (R6). -/
def address : BitVec 32 := 0xFFFFFFFF#32
/-- PID, "command packet" (R6). -/
def packetId : Byte := 0x01#8
/-- LENGTH, "payload length" (R6, R64). -/
def payloadLength : Half := 0x0007#16
/-- OPCODE, "set LED" (R6). -/
def opcode : Byte := 0x3C#8
/-- CKBASE, the sum of the constant bytes at offsets 6 to 9 (R6). -/
def ckBase : Half := 0x0044#16
/-- FRAME_LEN (R6). -/
def frameLen : Nat := 16
/-- The mode byte of `SET_LED.ON`, the one mode code the source states (R59). -/
def modeOn : Byte := 0x03#8

/-! ### Free values -/

/-- What an operand register holds after a RESET step, one value for each count (R23, R140; log 2). -/
opaque freeByte : Nat → Byte

/-- What CK holds after a RESET step, one value for each count (R23, R140; log 2). -/
opaque freeHalf : Nat → Half

/-! ### Parameters of the environment (R7, D19; log 12, 13 and 14)

TS_WIDTH, the one of them that types depend on, is `Config.tsWidth` in Word.lean. -/

/-- The codes of the five modes that the source gives no code for (R59, N4). -/
opaque modeCodeOpen : ModeName → Byte

/-- MODE_CODE of R7: On is fixed by the source, the others are open. -/
def modeCode : ModeName → Byte
  | .on => modeOn
  | m => modeCodeOpen m

/-- Which of bits 0 and 1 is GREEN; BLUE is the other one (R60, N5). -/
opaque greenIsBitOne : Bool

/-- COLOR_BIT of R7: RED is bit 2 by the source (R60). -/
def colourBit : Primary → Nat
  | .red => 2
  | .green => if greenIsBitOne then 1 else 0
  | .blue => if greenIsBitOne then 0 else 1

/-- The colour OFF (R60). -/
def colourOff : Byte := 0x00#8

/-- The colour WHITE (R60). -/
def colourWhite : Byte := 0x07#8

/-- SETCOLOR_CMD of R7: the tuple of `setColor(color)` is not in the source (R62, N6). -/
opaque setColorCmd : Byte → Command

/-- OFF_CMD of R7: the tuple of `off()` is not in the source (R62, N6). -/
opaque offCmd : Command

/-- The start colour, end colour and cycles bytes of `fadeIn(color)` (R62: "colours and cycles not given"). That they
depend on the colour alone, though D19's FADEIN_CMD may take further arguments, is the model's DESIGN CHOICE (log 12). -/
opaque fadeInOperands : Byte → Byte × Byte × Byte

/-- The start colour, end colour and cycles bytes of `fadeOut(color)` (R62). That they depend on the colour alone is the
model's DESIGN CHOICE (log 12). -/
opaque fadeOutOperands : Byte → Byte × Byte × Byte

/-- The start and end colour bytes of a breathing command, from the colour and the cycles byte of the command: 1 for
the single-cycle and 0 for the infinite one, so that nothing ties the bytes of the one to those of the other. Neither
is given (R62, R122). That nothing else enters, though D19's BREATHE_CMD may take further arguments (`perCycleMs`, the
number of repetitions), is the model's DESIGN CHOICE (log 12). -/
opaque breatheColours (colour cycles : Byte) : Byte × Byte

/-- Whether `runFixedCycles` performs the wait after its last `off()` (R116, U14). -/
opaque fixedCyclesLastWait : Bool

/-- Whether `colorCycle` waits after its last colour (R120, U14). -/
opaque colorCycleLastWait : Bool

/-- What `runFixedCycles(colour, onMs, offMs, cycles)` leaves in a BlinkState: the source does not say whether it touches
it (R116, N22). That the result depends on the operands and on the BlinkState before the call only, and not on the time
or on the framer, and that it is there from the call on, before the first command is sent, is the model's DESIGN CHOICE
(log 14, 22). -/
opaque blinkAfterFixedCycles (colour : Byte) (onMs offMs cycles : Nat) (before : BlinkState) : BlinkState

end Sys2Proof.Config
end

