-- ==== Sys2Proof/WellFormed.lean ====
section
/-! DEFINITION. When an instruction is the one spelling of its words. Every operand byte is allowed (R54, R56); the one
check is that the words of SET_LED with mode 0x03 are spelled SET_LED.ON, the table's row for them (R59, log 8). It is
a check on spelling only: exec runs either spelling, and to the same effect. -/

namespace Sys2Proof

/-- The words of `i` are not those of the other row of the opcode table. -/
def Instr.wellFormed : Instr → Bool
  | .setLed mode _ _ _ => mode != Config.modeOn
  | .setLedOn _ _ _ => true

/-- `Instr.wellFormed` as a proposition. -/
abbrev WellFormed (i : Instr) : Prop := i.wellFormed = true

end Sys2Proof
end

