-- ==== Sys2Proof/Decode.lean ====
section
/-! DEFINITION. The frame as an encoding: the checksum and the frame of a command (R71, R72), the recogniser of R63 as
a total decoder that rejects by name, the encoder, and the 128-bit view of R50 and R55. The framer itself decodes
nothing (R56): the decoder reads the host's program, which is written in these encodings (log 5, 9). -/

namespace Sys2Proof

/-! ### Bit fields and widening -/

/-- `zext_16` of a byte (R8). -/
def zext16 (b : Byte) : Half := b.setWidth 16

/-- `v[15:8]` (R8). -/
def hiByte (h : Half) : Byte := h.extractLsb' 8 8

/-- `v[7:0]` (R8). -/
def loByte (h : Half) : Byte := h.extractLsb' 0 8

/-- The concatenation of two bytes, the first the more significant (R8, R30). -/
def joinBytes (hi lo : Byte) : Half := (hi.setWidth 16 <<< 8) ||| lo.setWidth 16

/-! ### The two pure functions of 40_set_led_command.md -/

/-- `Checksum(m, s, e, c)`: the eight addends of R71, each a zero-extended byte, added in 16 bits. -/
def checksum (c : Command) : Half :=
  zext16 0x01#8 + zext16 0x00#8 + zext16 0x07#8 + zext16 0x3C#8
    + zext16 c.mode + zext16 c.startColour + zext16 c.endColour + zext16 c.cycles

/-- The fixed bytes 0 to 9 of every frame (R51). -/
def fixedBytes : List Byte :=
  [0xEF#8, 0x01#8, 0xFF#8, 0xFF#8, 0xFF#8, 0xFF#8, 0x01#8, 0x00#8, 0x07#8, 0x3C#8]

/-- `FrameOf(m, s, e, c)` (R72). -/
def frameOf (c : Command) : List Byte :=
  fixedBytes ++ [c.mode, c.startColour, c.endColour, c.cycles, hiByte (checksum c), loByte (checksum c)]

/-- Each byte with its `last` mark: the mark stands on the final byte only (R25, R36). -/
def markLast : List Byte → List (Byte × Bool)
  | [] => []
  | b :: bs => (b, bs.isEmpty) :: markLast bs

/-- The 16 pairs that an accepted command appends to SINK_LOG (R36). -/
def framePairs (c : Command) : List (Byte × Bool) := markLast (frameOf c)

/-! ### Decoding -/

/-- Why a byte string is no well-formed SET_LED frame: the first field that is wrong (R63). -/
inductive DecodeError where
  | wrongLength | badHeader | badAddress | badPacketId | badLength | badOpcode | badChecksum
  deriving DecidableEq, Repr

/-- The operands of an instruction as a command (R52, R59). -/
def Instr.command : Instr → Command
  | .setLed m s e c => ⟨m, s, e, c⟩
  | .setLedOn s e c => ⟨Config.modeOn, s, e, c⟩

/-- The table's row for a command's words: SET_LED.ON for mode 0x03, else SET_LED (R59, log 8). -/
def Instr.ofCommand (c : Command) : Instr :=
  if c.mode = Config.modeOn then .setLedOn c.startColour c.endColour c.cycles
  else .setLed c.mode c.startColour c.endColour c.cycles

/-- The operand bytes once bytes 0 to 9 are known to be right: R63's checksum condition. -/
def decodeOperands (m s e c k1 k0 : Byte) : Except DecodeError Instr :=
  if joinBytes k1 k0 = Config.ckBase + zext16 m + zext16 s + zext16 e + zext16 c then
    .ok (Instr.ofCommand ⟨m, s, e, c⟩)
  else .error .badChecksum

/-- The recogniser of R63, field by field in offset order. -/
def decode : List Byte → Except DecodeError Instr
  | [h1, h0, a3, a2, a1, a0, pid, l1, l0, op, m, s, e, c, k1, k0] =>
    if joinBytes h1 h0 ≠ Config.header then .error .badHeader
    else if joinBytes a3 a2 ≠ Config.address.extractLsb' 16 16 ∨ joinBytes a1 a0 ≠ Config.address.extractLsb' 0 16 then
      .error .badAddress
    else if pid ≠ Config.packetId then .error .badPacketId
    else if joinBytes l1 l0 ≠ Config.payloadLength then .error .badLength
    else if op ≠ Config.opcode then .error .badOpcode
    else decodeOperands m s e c k1 k0
  | _ => .error .wrongLength

/-! ### Encoding -/

/-- The words of an instruction: its frame (R50, R72). -/
def encode (i : Instr) : List Byte := frameOf i.command

/-! ### The 128-bit view W of R50, numbered as the opcode table numbers it -/

/-- The bytes of W: the byte at offset k is `W[127-8k : 120-8k]` (R50). -/
def wordBytes (w : BitVec 128) : List Byte :=
  (List.range 16).map fun k => w.extractLsb' (120 - 8 * k) 8

/-- W from the bytes, the byte at offset 0 the most significant (R50). -/
def bytesWord (bs : List Byte) : BitVec 128 :=
  bs.foldl (fun w b => (w <<< 8) ||| b.setWidth 128) 0#128

/-- A row of the opcode table: its mnemonic, mask and match (R55). -/
structure TableRow where
  mnemonic : String
  mask : BitVec 128
  pattern : BitVec 128
  deriving DecidableEq, Repr

/-- The rows of spec/opcode_table.json. -/
def opcodeTable : List TableRow :=
  [ ⟨"SET_LED", 0xFFFFFFFFFFFFFFFFFFFF000000000000#128, 0xEF01FFFFFFFF0100073C000000000000#128⟩,
    ⟨"SET_LED.ON", 0xFFFFFFFFFFFFFFFFFFFFFF0000000000#128, 0xEF01FFFFFFFF0100073C030000000000#128⟩ ]

/-- `W & MASK = MATCH` (R55). -/
def TableRow.matchesWord (r : TableRow) (w : BitVec 128) : Bool := w &&& r.mask == r.pattern

/-- The instruction the decoder reads from a word numbered as the opcode table numbers it: bit 127 is the most
significant bit of the byte at offset 0 (the table's bit_order; log 10). -/
def decodeTableWord (nbits w : Nat) : Option Instr :=
  match decode (wordBytes (BitVec.ofNat 128 (w % 2 ^ nbits))) with
  | .ok i => some i
  | .error _ => none

end Sys2Proof
end

