-- ==== Sys2Proof/Machine/State.lean ====
section
/-! DEFINITION. The state: the framer's seven registers (R10), the sink's record (R25), the input ports (R21), the
client software's BlinkState (R108), and the model's own agenda and free-value counter; the reasons a step stops;
and the state at the start of a run (R23, R141). -/

namespace Sys2Proof.Machine

/-- PHASE of R14. The binary encoding is not observable. -/
inductive Phase where
  /-- No command in flight. -/
  | idle
  /-- Bytes IDX to 15 are still to be handed to the sink. -/
  | send
  /-- All 16 bytes are handed over, the flush is not confirmed. -/
  | flush
  deriving DecidableEq, Repr, Inhabited

/-- The levels of the input ports at one clock edge (R21). -/
structure Pins where
  /-- `rst`, synchronous, active high. -/
  rst : Bool
  /-- `cmd_valid`. -/
  cmdValid : Bool
  /-- `cmd_mode`, `cmd_start`, `cmd_end`, `cmd_cycles`. -/
  cmdMode : Byte
  cmdStart : Byte
  cmdEnd : Byte
  cmdCycles : Byte
  /-- SINK_PRESENT (R16). -/
  sinkPresent : Bool
  /-- `tx_ready`. -/
  txReady : Bool
  /-- `flush_done`. -/
  flushDone : Bool
  deriving DecidableEq, Repr, Inhabited

/-- What the host still has to do (R77, R93, R123; log 5). -/
inductive HostAction where
  /-- One blocking call of encodeAndSend, written as its FRAME16 encoding. -/
  | send (frame : List Byte)
  /-- A wait of the Waiter, in milliseconds (R123; log 15). -/
  | wait (ms : Nat)
  /-- One call of the client software (42_host_clients.md). -/
  | client (op : ClientOp)
  deriving DecidableEq, Repr

/-- The machine. -/
structure State where
  /-- x[0], MODE (R11). -/
  x0 : Byte
  /-- x[1], START (R11). -/
  x1 : Byte
  /-- x[2], END (R11). -/
  x2 : Byte
  /-- x[3], CYCLES (R11). -/
  x3 : Byte
  /-- CK (R12). -/
  ck : Half
  /-- IDX (R13). -/
  idx : Offset
  /-- PHASE (R14). -/
  phase : Phase
  /-- SINK_LOG, oldest pair first (R25). -/
  sinkLog : List (Byte × Bool)
  /-- FLUSHES (R25). -/
  flushes : Nat
  /-- The input levels at the coming edge (R21, R85). -/
  pins : Pins
  /-- The input levels at the edges after it; when the list is empty the levels stay as they are (log 4). -/
  schedule : List Pins
  /-- What the host still has to do, first action first (log 5). -/
  agenda : List HostAction
  /-- BlinkState of the client software (R108). -/
  blink : BlinkState
  /-- How many free values have been drawn (log 2). -/
  free : Nat
  deriving DecidableEq, Repr

/-- The framer raises no fault: its two named conditions change no control flow and have no handler (R125, R126,
R127). So there is no constructor, and no step faults. -/
inductive Fault where
  deriving DecidableEq, Repr

/-- Why a step has no meaning. -/
inductive Refusal where
  /-- Raised by exec's arm of an instruction without a meaning; none is left. Safe: the machine stops. -/
  | notModelled (mnemonic : String)
  /-- Raised by step: the host's next call is written in bytes that are no well-formed frame, so they stand for no
  command (R63; log 9). Safe: no command of the framer is stopped by it. -/
  | notACommand (why : DecodeError)
  /-- Raised by the client call `poll(now)` while active with `now` before the phase start: the Clock contract of
  R123 is broken and 93_implementation_defined.md U13 says to refuse (log 13). Safe. -/
  | clockWentBack
  deriving DecidableEq, Repr

/-- The input levels of program P1 of 95_test_vectors.md with no command offered: `rst` 0, the sink present and
ideal. The spec gives inputs no reset level (DESIGN CHOICE, unsafe; log 3). -/
def Pins.idealSink : Pins :=
  { rst := false, cmdValid := false, cmdMode := 0#8, cmdStart := 0#8, cmdEnd := 0#8, cmdCycles := 0#8,
    sinkPresent := true, txReady := true, flushDone := true }

/-- BlinkState at construction: inactive (R108). The other fields are not in the spec (DESIGN CHOICE; log 17). -/
def blinkAtConstruction : BlinkState :=
  { active := false, colour := 0#8, onMs := 0, offMs := 0, phase := .on, phaseStart := 0#_ }

/-- The start of a run: PHASE = IDLE, IDX = 0, SINK_LOG empty, FLUSHES 0 (R23, R141). x and CK are unspecified in the
spec; this state has zero in them (DESIGN CHOICE, unsafe; log 1). -/
def State.reset : State :=
  { x0 := 0#8, x1 := 0#8, x2 := 0#8, x3 := 0#8, ck := 0#16, idx := 0#4, phase := .idle,
    sinkLog := [], flushes := 0, pins := Pins.idealSink, schedule := [], agenda := [],
    blink := blinkAtConstruction, free := 0 }

end Sys2Proof.Machine
end

