-- ==== Sys2Proof/Machine/Operands.lean ====
section
/-! DEFINITION. The one operand form: four bytes by value (R54). Where they come from (the operand ports, R21), where
they are kept (the operand registers, R11), how they are placed in the frame space (R18), and how the frame space is
read (R8, R44). -/

namespace Sys2Proof.Machine

/-- The command on the operand ports (R21, R87). -/
def Pins.command (p : Pins) : Command := ⟨p.cmdMode, p.cmdStart, p.cmdEnd, p.cmdCycles⟩

/-- The ports with a command offered on them: `cmd_valid` = 1 and the four operand bytes (R93(a)). -/
def Pins.offer (c : Command) (p : Pins) : Pins :=
  { p with cmdValid := true, cmdMode := c.mode, cmdStart := c.startColour, cmdEnd := c.endColour,
           cmdCycles := c.cycles }

/-- The command whose bytes the operand registers hold (R11). -/
def State.command (s : State) : Command := ⟨s.x0, s.x1, s.x2, s.x3⟩

/-- x[0..3] take the four bytes together, unchanged (R11, R54). -/
def latchOperands (c : Command) (s : State) : State :=
  { s with x0 := c.mode, x1 := c.startColour, x2 := c.endColour, x3 := c.cycles }

/-- `FrameByte(k)`, the table of R18. -/
def frameByte (s : State) (k : Offset) : Byte :=
  match k.toNat with
  | 0 => hiByte Config.header
  | 1 => loByte Config.header
  | 2 => Config.address.extractLsb' 24 8
  | 3 => Config.address.extractLsb' 16 8
  | 4 => Config.address.extractLsb' 8 8
  | 5 => Config.address.extractLsb' 0 8
  | 6 => Config.packetId
  | 7 => hiByte Config.payloadLength
  | 8 => loByte Config.payloadLength
  | 9 => Config.opcode
  | 10 => s.x0
  | 11 => s.x1
  | 12 => s.x2
  | 13 => s.x3
  | 14 => hiByte s.ck
  | _ => loByte s.ck

/-- The frame space in offset order, `FrameByte(0)` to `FrameByte(15)` (R18). -/
def frameSpace (s : State) : List Byte := (List.range Config.frameLen).map fun k => frameByte s (BitVec.ofNat 4 k)

/-- `MemRead(a, n)` of R8 and R44: n bytes as one value, the byte at offset a most significant; no value where the
read leaves the 16 offsets, which are the whole address map (R35; log 19). -/
def memRead (s : State) (a n : Nat) : Option Nat :=
  if a + n ≤ Config.frameLen then
    some (((frameSpace s).drop a |>.take n).foldl (fun v b => 256 * v + b.toNat) 0)
  else none

end Sys2Proof.Machine
end

