-- ==== Sys2Proof/Machine/Flags.lean ====
section
/-! DEFINITION. The one status flag BUSY (R15) and the outputs, all functions of the state (R22). There are no
arithmetic flags. -/

namespace Sys2Proof.Machine

/-- BUSY = (PHASE != IDLE) (R15). -/
def busy (s : State) : Bool := s.phase != .idle

/-- The output ports of R21. `txData` has no value while `txValid` is 0 (R22, D24; log 11). -/
structure Outputs where
  cmdReady : Bool
  txValid : Bool
  txData : Option Byte
  txLast : Bool
  flushReq : Bool
  busy : Bool
  deriving DecidableEq, Repr

/-- The outputs of R22. -/
def outputs (s : State) : Outputs :=
  { cmdReady := s.phase == .idle
    txValid := s.phase == .send
    txData := if s.phase = .send then some (frameByte s s.idx) else none
    txLast := s.phase == .send && s.idx == 15#4
    flushReq := s.phase == .flush
    busy := Machine.busy s }

end Sys2Proof.Machine
end

