-- ==== Sys2Proof/Machine/Ops.lean ====
section
/-! DEFINITION. The shared operations: the sink's two calls (R8 SinkWrite and SinkFlush), raising a named condition
(R126, R131), drawing free values (log 2), and the passage from one clock edge to the next (R85; log 4). -/

namespace Sys2Proof.Machine

/-! ### The byte sink -/

/-- `SinkWrite(b, last)`: the pair is appended to SINK_LOG (R8, R25, R89). -/
def sinkWrite (b : Byte) (last : Bool) (s : State) : State := { s with sinkLog := s.sinkLog ++ [(b, last)] }

/-- `SinkFlush()` confirmed: FLUSHES <- FLUSHES + 1 (R8, R90). -/
def sinkFlush (s : State) : State := { s with flushes := s.flushes + 1 }

/-- One write of all the bytes, ascending, the mark on the final one (R70, R74). -/
def sinkWriteAll : List Byte → State → State
  | [], s => s
  | b :: bs, s => sinkWriteAll bs (sinkWrite b bs.isEmpty s)

/-! ### Error conditions -/

/-- The two named conditions of R125; they have no numeric code (R128). -/
inductive Condition where
  /-- A command is consumed while the sink is absent (R126). -/
  | uninitialized
  /-- A write or flush failure in the sink; never detected here (R127), so nothing raises it. -/
  | transportFailure
  deriving DecidableEq, Repr

/-- Taking an exception. Entry is empty: "no state is saved, no mode changes, no mask changes, control goes nowhere"
(R131), nothing is reported (R126, R138), and there is no return because nothing was entered (R132). -/
def raise (_ : Condition) (s : State) : State := s

/-! ### Free values -/

/-- x[0..3] and CK become unspecified (R23, R140): five free values, the counter moved past them (log 2). -/
def forgetOperands (s : State) : State :=
  { s with x0 := Config.freeByte s.free, x1 := Config.freeByte (s.free + 1), x2 := Config.freeByte (s.free + 2),
           x3 := Config.freeByte (s.free + 3), ck := Config.freeHalf (s.free + 4), free := s.free + 5 }

/-! ### Clock edges -/

/-- The input levels of the next edge come onto the ports; when no change is scheduled they stay (log 4). -/
def nextPins (s : State) : State :=
  match s.schedule with
  | [] => s
  | p :: rest => { s with pins := p, schedule := rest }

end Sys2Proof.Machine
end

