-- ==== Sys2Proof/Machine/Clients.lean ====
section
/-! DEFINITION. The client software that issues commands (42_host_clients.md), the environment of the framer. A client
operation changes BlinkState and says which host actions it performs, in order. -/

namespace Sys2Proof.Machine

/-! ### The derived commands (R62) -/

/-- One call of encodeAndSend. -/
def sendCommand (c : Command) : HostAction := .send (frameOf c)

/-- `setColor(color)`. -/
def sendColour (colour : Byte) : HostAction := sendCommand (Config.setColorCmd colour)

/-- `off()`. -/
def sendOff : HostAction := sendCommand Config.offCmd

/-- A command of a given mode with the operand bytes the environment's parameter gives. -/
def modeCommand (m : ModeName) (r : Byte × Byte × Byte) : Command := ⟨Config.modeCode m, r.1, r.2.1, r.2.2⟩

/-- A breathing command: mode Breathing and the given cycles byte (R62). The colour bytes are not given; they are free
values of the colour and the cycles byte, and that they depend on nothing else is a DESIGN CHOICE (log 12). -/
def breatheCommand (colour cycles : Byte) : Command :=
  ⟨Config.modeCode .breathing, (Config.breatheColours colour cycles).1, (Config.breatheColours colour cycles).2, cycles⟩

/-! ### BlinkScheduler -/

/-- `start` (R110): from any state to On, with the durations of this call and the current timestamp. -/
def blinkStart (colour : Byte) (onMs offMs : Nat) (now : Timestamp) : BlinkState :=
  { active := true, colour := colour, onMs := onMs, offMs := offMs, phase := .on, phaseStart := now }

/-- `stop` (R111): inactive. The values of the other fields while inactive are not given, and they are never read then
(R108); that they keep their old values is the model's DESIGN CHOICE (log 17). -/
def blinkStop (b : BlinkState) : BlinkState := { b with active := false }

/-- `now - phaseStart` of R112, exact: nothing is computed modulo 2^TS_WIDTH (N9; log 13). -/
def elapsed (b : BlinkState) (now : Timestamp) : Nat := now.toNat - b.phaseStart.toNat

/-- `poll(now)` (R112): the new BlinkState and the commands sent, at most one (R113). -/
def blinkPoll (now : Timestamp) (b : BlinkState) : BlinkState × List HostAction :=
  if b.active then
    match b.phase with
    | .on =>
      if elapsed b now ≥ b.onMs then ({ b with phase := .off, phaseStart := now }, [sendOff]) else (b, [])
    | .off =>
      if elapsed b now ≥ b.offMs then ({ b with phase := .on, phaseStart := now }, [sendColour b.colour])
      else (b, [])
  else (b, [])

/-! ### The blocking helpers -/

/-- `n` repetitions of set-colour, wait, off, wait (R119). -/
def flashActions (colour : Byte) (onMs offMs : Nat) : Nat → List HostAction
  | 0 => []
  | n + 1 => [sendColour colour, .wait onMs, sendOff, .wait offMs] ++ flashActions colour onMs offMs n

/-- The on/off pairs of `runFixedCycles` (R116); whether the wait after the last `off()` is performed is open. -/
def fixedCycleActions (colour : Byte) (onMs offMs : Nat) : Nat → List HostAction
  | 0 => []
  | 1 => [sendColour colour, .wait onMs, sendOff] ++ if Config.fixedCyclesLastWait then [.wait offMs] else []
  | n + 2 => [sendColour colour, .wait onMs, sendOff, .wait offMs] ++ fixedCycleActions colour onMs offMs (n + 1)

/-- `colorCycle` (R120): each colour in order, a wait between; whether one follows the last colour is open. -/
def colorCycleActions (stepMs : Nat) : List Byte → List HostAction
  | [] => []
  | [c] => sendColour c :: if Config.colorCycleLastWait then [.wait stepMs] else []
  | c :: c' :: cs => sendColour c :: .wait stepMs :: colorCycleActions stepMs (c' :: cs)

/-- `n` single-cycle breathing commands, each followed by a wait (R122). -/
def breatheActions (colour : Byte) (perCycleMs : Nat) : Nat → List HostAction
  | 0 => []
  | n + 1 => [sendCommand (breatheCommand colour 1#8), .wait perCycleMs] ++ breatheActions colour perCycleMs n

/-- What a client operation leaves in BlinkState and the actions it performs (R110 to R122). -/
def clientEffect (op : ClientOp) (b : BlinkState) : BlinkState × List HostAction :=
  match op with
  | .setColor colour => (b, [sendColour colour])
  | .off => (b, [sendOff])
  | .start colour onMs offMs now => (blinkStart colour onMs offMs now, [sendColour colour])
  | .stop => (blinkStop b, [sendOff])
  | .poll now => blinkPoll now b
  | .runFixedCycles colour onMs offMs n => (Config.blinkAfterFixedCycles colour onMs offMs n b, fixedCycleActions colour onMs offMs n)
  | .flashBlocking colour onMs offMs n => (b, flashActions colour onMs offMs n)
  | .colorCycle colours stepMs => (b, colorCycleActions stepMs colours)
  | .fadeIn colour => (b, [sendCommand (modeCommand .fadeIn (Config.fadeInOperands colour))])
  | .fadeOut colour => (b, [sendCommand (modeCommand .fadeOut (Config.fadeOutOperands colour))])
  | .breathingFixedCycles colour perCycleMs n =>
    (b, if n = 0 then [sendCommand (breatheCommand colour 0#8)] else breatheActions colour perCycleMs n)

/-- The Clock contract is kept: time does not run backwards for an active scheduler (R123, U13; log 13). -/
def clockInOrder : ClientOp → BlinkState → Bool
  | .poll now, b => !b.active || decide (b.phaseStart ≤ now)
  | _, _ => true

/-- One client call: BlinkState changes, and its actions come before the rest of the host's agenda (R118). When the
writes of BlinkState happen relative to the blocking send is open: R112 lists the send first, R8 has the writes of one
step together. The model writes BlinkState at once, so the new state shows while the send is still to come, in flight
or hanging (DESIGN CHOICE; log 22). -/
def runClient (op : ClientOp) (s : State) : Host.Outcome State Fault Refusal :=
  if clockInOrder op s.blink then
    .next { s with blink := (clientEffect op s.blink).1, agenda := (clientEffect op s.blink).2 ++ s.agenda }
  else .refused .clockWentBack

end Sys2Proof.Machine
end

