-- ==== Sys2Proof/Machine/Framer.lean ====
section
/-! DEFINITION. The framer as a synchronous state machine (41_framer_steps.md): step selection, the six steps, one
clock edge. -/

namespace Sys2Proof.Machine

/-- The six steps of R86. -/
inductive FramerStep where
  | reset | accept | drop | emit | complete | hold
  deriving DecidableEq, Repr

/-- The step-selection table of R86, a total function of PHASE and the inputs. -/
def selectStep (p : Pins) (ph : Phase) : FramerStep :=
  if p.rst then .reset
  else match ph with
    | .idle => if p.cmdValid then (if p.sinkPresent then .accept else .drop) else .hold
    | .send => if p.txReady then .emit else .hold
    | .flush => if p.flushDone then .complete else .hold

/-- RESET (R92, R140). -/
def stepReset (s : State) : State := { forgetOperands s with phase := .idle, idx := 0#4 }

/-- ACCEPT of the command on the ports (R87). -/
def stepAccept (c : Command) (s : State) : State :=
  { latchOperands c s with
    ck := Config.ckBase + zext16 c.mode + zext16 c.startColour + zext16 c.endColour + zext16 c.cycles
    idx := 0#4
    phase := .send }

/-- DROP (R88). -/
def stepDrop (s : State) : State := raise .uninitialized s

/-- EMIT (R89). -/
def stepEmit (s : State) : State :=
  let s' := sinkWrite (frameByte s s.idx) (s.idx == 15#4) s
  if s.idx < 15#4 then { s' with idx := s.idx + 1#4 } else { s' with idx := 0#4, phase := .flush }

/-- COMPLETE (R90). -/
def stepComplete (s : State) : State := { sinkFlush s with phase := .idle }

/-- HOLD (R91). -/
def stepHold (s : State) : State := s

/-- The framer's step with given inputs (R86). -/
def takeStep (p : Pins) (s : State) : State :=
  match selectStep p s.phase with
  | .reset => stepReset s
  | .accept => stepAccept p.command s
  | .drop => stepDrop s
  | .emit => stepEmit s
  | .complete => stepComplete s
  | .hold => stepHold s

/-- One rising clock edge: the framer's step with the levels on the ports, then the next levels. -/
def edge (s : State) : State := nextPins (takeStep s.pins s)

/-- `k` clock edges in a row. -/
def edges : Nat → State → State
  | 0, s => s
  | k + 1, s => edges k (edge s)

end Sys2Proof.Machine
end

