-- ==== Sys2Proof/Machine/SetLed.lean ====
section
/-! DEFINITION. SET_LED (40_set_led_command.md). The blocking call of R70 and R77, carried out by the framer's own
clock edges, is the meaning of both rows of the opcode table. `transact` is the same command at transaction level, the
pseudocode of R70; R96 says that the two agree. -/

namespace Sys2Proof.Machine

/-- Clock edges until the command in flight is complete (PHASE = IDLE, R39), at most `n` of them. -/
def untilIdle : Nat → State → State
  | 0, s => s
  | n + 1, s =>
    match s.phase with
    | .idle => s
    | _ => untilIdle n (edge s)

/-- How many edges the call can still need: the scheduled changes of the inputs, then 16 bytes and a flush (R95). A
framer that is not idle after these holds for ever, since its inputs no longer change (R97; log 6). -/
def callBound (s : State) : Nat := s.schedule.length + 17

/-- The edge that consumes the command: it is on the command port, whatever the schedule has there (R87, R88; log 7). -/
def consume (c : Command) (s : State) : State := nextPins (takeStep (s.pins.offer c) s)

/-- The command is not consumed at this edge (`rst` = 1, or PHASE is not IDLE): the edge passes and the call waits, still
the host's next action (R86, R93(a), R140). -/
def waitToIssue (c : Command) (s : State) : State := edge { s with agenda := .send (frameOf c) :: s.agenda }

/-- The blocking call `encodeAndSend(c)` (R70, R77). In PHASE = IDLE the command is consumed, by ACCEPT or DROP, and the
host waits while the framer works. Where the sink never answers, the call does not return: the state is the one in
which the framer holds (R97). -/
def issue (c : Command) (s : State) : State :=
  if s.pins.rst then waitToIssue c s
  else match s.phase with
    | .idle => untilIdle (callBound (consume c s)) (consume c s)
    | _ => waitToIssue c s

/-- `SET_LED mode, start, end, cycles` (R70). -/
def execSetLed (mode startColour endColour cycles : Byte) (s : State) : Host.Outcome State Fault Refusal :=
  .next (issue ⟨mode, startColour, endColour, cycles⟩ s)

/-- `SET_LED.ON start, end, cycles`: SET_LED with the mode byte 0x03 (R59). -/
def execSetLedOn (startColour endColour cycles : Byte) (s : State) : Host.Outcome State Fault Refusal :=
  .next (issue ⟨Config.modeOn, startColour, endColour, cycles⟩ s)

/-- The pseudocode of R70 on SINK_LOG and FLUSHES. It says what the call does once it has returned, not when. -/
def transact (c : Command) (s : State) : State :=
  if s.pins.sinkPresent then sinkFlush (sinkWriteAll (frameOf c) s) else raise .uninitialized s

end Sys2Proof.Machine
end

