-- ==== Sys2Proof/Machine/Dispatch.lean ====
section
/-! DEFINITION. One arm per constructor of Instr. -/

namespace Sys2Proof.Machine

def exec (i : Instr) (s : State) : Host.Outcome State Fault Refusal :=
  match i with
  | .setLed m b e c => Sys2Proof.Machine.execSetLed m b e c s
  | .setLedOn b e c => Sys2Proof.Machine.execSetLedOn b e c s

end Sys2Proof.Machine
end

