-- ==== Sys2Proof/Machine/Fetch.lean ====
section
/-! DEFINITION. Which agent moves, and fetching the host's next action (R85, R93; log 5, 16). -/

namespace Sys2Proof.Machine

/-- The host's next call: its bytes are decoded and the instruction runs; bytes that are no frame are no command
(R63; log 9). -/
def runCall (frame : List Byte) (s : State) : Host.Outcome State Fault Refusal :=
  match decode frame with
  | .ok i => exec i s
  | .error why => .refused (.notACommand why)

/-- With nothing on the agenda, one clock edge. A call goes to the framer. Waits and client operations happen between
calls: while the framer is busy the caller is still blocked (R77, R93(c)), and the edge passes. -/
def runAgenda (s : State) : Host.Outcome State Fault Refusal :=
  match s.agenda with
  | [] => .next (edge s)
  | .send frame :: rest => runCall frame { s with agenda := rest }
  | .wait _ :: rest => if busy s then .next (edge s) else .next (edge { s with agenda := rest })
  | .client op :: rest => if busy s then .next (edge s) else runClient op { s with agenda := rest }

/-- The word of the opcode table as the host's next call, with the framer ready to consume it: not in reset, IDLE. -/
def placeCall (nbits w : Nat) (s : State) : State :=
  { s with agenda := .send (wordBytes (BitVec.ofNat 128 (w % 2 ^ nbits))) :: s.agenda
           pins := { s.pins with rst := false }
           phase := .idle
           idx := 0#4 }

end Sys2Proof.Machine
end

