-- ==== Sys2Proof/Machine/Step.lean ====
section
/-! DEFINITION. The step function and the placing of an instruction where it is fetched. -/

namespace Sys2Proof.Machine

/-- One step: the host's next action where there is one and the caller is not blocked, else one clock edge. -/
def step (s : State) : Host.Outcome State Fault Refusal := runAgenda s

/-- `s` with the instruction whose bits are `w` as the host's next call (log 5). -/
def State.withFetchWord (s : State) (nbits w : Nat) : State := placeCall nbits w s

end Sys2Proof.Machine
end

