-- ==== Sys2Proof/Machine/Streaming.lean ====
section
/-! DEFINITION. The equivalent implementation of R98: CK starts at 0 and each EMIT of offsets 6 to 13 adds its byte. -/

namespace Sys2Proof.Machine

/-- ACCEPT of the variant: CK <- 0 instead of the full sum (R98). -/
def stepAcceptStreaming (c : Command) (s : State) : State :=
  { latchOperands c s with ck := 0#16, idx := 0#4, phase := .send }

/-- EMIT of the variant: at offsets 6 to 13 the byte is also added to CK (R98). -/
def stepEmitStreaming (s : State) : State :=
  if 6#4 ≤ s.idx ∧ s.idx ≤ 13#4 then { stepEmit s with ck := s.ck + zext16 (frameByte s s.idx) } else stepEmit s

/-- The variant's step with given inputs; selection and the other four steps are those of R86. -/
def takeStepStreaming (p : Pins) (s : State) : State :=
  match selectStep p s.phase with
  | .reset => stepReset s
  | .accept => stepAcceptStreaming p.command s
  | .drop => stepDrop s
  | .emit => stepEmitStreaming s
  | .complete => stepComplete s
  | .hold => stepHold s

/-- One rising clock edge of the variant. -/
def edgeStreaming (s : State) : State := nextPins (takeStepStreaming s.pins s)

end Sys2Proof.Machine
end

