-- ==== Sys2Proof/Safety.lean ====
section
/-! DEFINITION. What a good run is, in the terms that claims use: the invariants of R24 and R96, the accounting of
SINK_LOG and FLUSHES of R37 and R99, the fairness assumption of R94(e), and the relation between the framer and its
streaming variant (R98). -/

namespace Sys2Proof.Machine

/-- The pairs of the command in flight that the sink has taken so far (R37, R96): the first IDX while PHASE = SEND, all
16 while PHASE = FLUSH. -/
def State.inFlight (s : State) : List (Byte × Bool) :=
  match s.phase with
  | .idle => []
  | .send => (framePairs s.command).take s.idx.toNat
  | .flush => framePairs s.command

/-- R24, and the place of the frame in flight in SINK_LOG (R96). -/
structure Inv (s : State) : Prop where
  /-- R24(a). -/
  idle_idx : s.phase = .idle → s.idx = 0#4
  /-- R24(b). -/
  flush_idx : s.phase = .flush → s.idx = 0#4
  /-- R24(c). -/
  ck_sum : s.phase ≠ .idle → s.ck = 0x0044#16 + zext16 s.x0 + zext16 s.x1 + zext16 s.x2 + zext16 s.x3
  /-- R24(d). -/
  ck_top : s.phase ≠ .idle → s.ck.extractLsb' 11 5 = 0#5
  /-- R96, last sentence. -/
  log_tail : s.inFlight <:+ s.sinkLog

/-- `rst` stays 0 at the coming edge and at every later one (R96). -/
def NoReset (s : State) : Prop := s.pins.rst = false ∧ ∀ p ∈ s.schedule, p.rst = false

/-- The levels that the inputs keep once the schedule is used up. -/
def steadyPins (s : State) : Pins := s.schedule.getLastD s.pins

/-- R94(e), first half, for the command in flight in `s`: if from some edge of its run on `tx_valid` stays 1, then at one
of these edges the sink raises `tx_ready`. The states of the run are `untilIdle n s`; nothing is asked of the sink after
the command is complete. -/
def TakesEveryByte (s : State) : Prop :=
  ∀ k, (∀ n, k ≤ n → (outputs (untilIdle n s)).txValid = true) → ∃ n, k ≤ n ∧ (untilIdle n s).pins.txReady = true

/-- R94(e), second half: if from some edge of the run on `flush_req` stays 1, then at one of these edges the sink raises
`flush_done`. -/
def ConfirmsTheFlush (s : State) : Prop :=
  ∀ k, (∀ n, k ≤ n → (outputs (untilIdle n s)).flushReq = true) → ∃ n, k ≤ n ∧ (untilIdle n s).pins.flushDone = true

/-- The sink meets R94(e) for the command in flight: however long it stalls, it does not stall for ever. -/
def FairSink (s : State) : Prop := TakesEveryByte s ∧ ConfirmsTheFlush s

/-- The sink never takes a byte: `tx_ready` is 0 at every edge (R97), and `rst` stays 0. -/
def SinkNeverReady (s : State) : Prop :=
  s.pins.rst = false ∧ s.pins.txReady = false ∧ ∀ p ∈ s.schedule, p.rst = false ∧ p.txReady = false

/-- The sink never confirms a flush: `flush_done` is 0 at every edge (R97), and `rst` stays 0. -/
def SinkNeverFlushes (s : State) : Prop :=
  s.pins.rst = false ∧ s.pins.flushDone = false ∧ ∀ p ∈ s.schedule, p.rst = false ∧ p.flushDone = false

/-- SINK_LOG is the frames of `done`, in order and whole, then what the sink has of the command in flight; FLUSHES
counts `done` (R37, R99). -/
def AccountedBy (done : List Command) (s : State) : Prop :=
  s.sinkLog = done.flatMap framePairs ++ s.inFlight ∧ s.flushes = done.length

/-- A wait, which offers no command. -/
def isWait : HostAction → Bool
  | .send _ => false
  | .wait _ => true
  | .client _ => false

/-- The host's remaining actions, begun with BlinkState `b`, offer no command: they are waits, and client operations that
send nothing when their turn comes (a poll that is not due, a helper with no repetitions). -/
def offersNoCommand : List HostAction → BlinkState → Bool
  | [], _ => true
  | .send _ :: _, _ => false
  | .wait _ :: rest, b => offersNoCommand rest b
  | .client op :: rest, b => (clientEffect op b).2.all isWait && offersNoCommand rest (clientEffect op b).1

/-- A run is finished: PHASE = IDLE and the host offers no further command, neither through its agenda nor on the command
port (R99). -/
def Finished (s : State) : Prop :=
  s.phase = .idle ∧ offersNoCommand s.agenda s.blink = true ∧
    s.pins.cmdValid = false ∧ ∀ p ∈ s.schedule, p.cmdValid = false

/-- What the streaming variant's CK holds while PHASE = SEND: the sum of the bytes at offsets 6 to 13 already sent
(R98). -/
def streamedCk (s : State) : Half :=
  ((((frameSpace s).take s.idx.toNat).drop 6).take 8).foldl (fun v b => v + zext16 b) 0#16

/-- The framer in state `s` and its streaming variant in state `t` differ in CK only, each with its own rule for it
while PHASE = SEND (R98). -/
def StreamRel (s t : State) : Prop :=
  t = { s with ck := t.ck } ∧ (s.phase = .send → s.ck = checksum s.command ∧ t.ck = streamedCk s)

/-- The calls of encodeAndSend among host actions, in order, the waits left out (R116: "on-commands and off-commands, in
strict alternation"). -/
def callsOf (l : List HostAction) : List HostAction :=
  l.filter fun a => match a with
    | .send _ => true
    | .wait _ => false
    | .client _ => false

/-- `k` clock edges of the streaming variant. -/
def edgesStreaming : Nat → State → State
  | 0, s => s
  | k + 1, s => edgesStreaming k (edgeStreaming s)

end Sys2Proof.Machine
end

