-- ==== Sys2Proof/Certificates/Slice0/Obligations.lean ====
section
/-! DEFINITION. The statements for the provers. Each docstring names the rules of spec/ it formalises; "log n" is
notes/assumptions/n.md. -/

open Sys2Proof Sys2Proof.Machine

/-! ### Reset -/

/-- R23 (decision D13 of the spec): what a reset leaves, both at the start of a run and after a RESET step in any state,
and the outputs and hardwired constants then. x and CK are unspecified, so nothing is said of them.
R23 says that `tx_data` is any value; that the output has no value while `tx_valid` is 0 is the model's reading of it and
of D24 (log 11). -/
def Obligations.ResetLeavesFramerIdle : Prop :=
  ∀ s, s = State.reset ∨ (∃ r, s = stepReset r) →
    s.phase = .idle ∧ s.idx = 0#4 ∧ busy s = false ∧
    outputs s = { cmdReady := true, txValid := false, txData := none, txLast := false, flushReq := false, busy := false } ∧
    (frameSpace s).take 10 = fixedBytes

/-- R92, R140, R154: a RESET edge, whatever the state and the other inputs: no transfer, no confirmation, the sink and
the host are not reset. -/
def Obligations.ResetEdgeTransfersNothing : Prop :=
  ∀ (p : Pins) (s : State), p.rst = true →
    ∃ t, takeStep p s = t ∧ t.phase = .idle ∧ t.idx = 0#4 ∧ t.sinkLog = s.sinkLog ∧ t.flushes = s.flushes ∧
      t.agenda = s.agenda ∧ t.blink = s.blink ∧ t.pins = s.pins ∧ t.schedule = s.schedule

/-- R142 (and R24): a reset in SEND leaves SINK_LOG ending in the first IDX pairs of the frame, none of them marked
last; a reset in FLUSH leaves all 16 there and the flush uncounted. -/
def Obligations.ResetInMidFrameTruncates : Prop :=
  ∀ s : State, Inv s → s.pins.rst = true →
    (edge s).sinkLog = s.sinkLog ∧ (edge s).flushes = s.flushes ∧ (edge s).phase = .idle ∧
    (s.phase = .send →
      ∃ before, (edge s).sinkLog = before ++ (framePairs s.command).take s.idx.toNat ∧
        ∀ q ∈ (framePairs s.command).take s.idx.toNat, q.2 = false) ∧
    (s.phase = .flush → ∃ before, (edge s).sinkLog = before ++ framePairs s.command)

/-! ### The six steps -/

/-- R86: the step-selection table, row by row. -/
def Obligations.StepSelectionFollowsTable : Prop :=
  ∀ (p : Pins) (s : State),
    (p.rst = true → takeStep p s = stepReset s) ∧
    (p.rst = false →
      (s.phase = .idle → p.cmdValid = true → p.sinkPresent = true → takeStep p s = stepAccept p.command s) ∧
      (s.phase = .idle → p.cmdValid = true → p.sinkPresent = false → takeStep p s = stepDrop s) ∧
      (s.phase = .idle → p.cmdValid = false → takeStep p s = stepHold s) ∧
      (s.phase = .send → p.txReady = true → takeStep p s = stepEmit s) ∧
      (s.phase = .send → p.txReady = false → takeStep p s = stepHold s) ∧
      (s.phase = .flush → p.flushDone = true → takeStep p s = stepComplete s) ∧
      (s.phase = .flush → p.flushDone = false → takeStep p s = stepHold s)) ∧
    (s.phase ≠ .idle → ∀ v, takeStep { p with cmdValid := v } s = takeStep p s)

/-- R87: ACCEPT latches the bytes on the ports, stores their checksum and starts sending; nothing else changes, and a
further offer is not looked at while the frame goes out. -/
def Obligations.AcceptLatchesOperandsAndChecksum : Prop :=
  ∀ (p : Pins) (s : State), p.rst = false → s.phase = .idle → p.cmdValid = true → p.sinkPresent = true →
    ∃ t, takeStep p s = t ∧
      t = { s with
            x0 := p.cmdMode, x1 := p.cmdStart, x2 := p.cmdEnd, x3 := p.cmdCycles
            ck := 0x0044#16 + zext16 p.cmdMode + zext16 p.cmdStart + zext16 p.cmdEnd + zext16 p.cmdCycles
            idx := 0#4, phase := .send } ∧
      busy t = true ∧
      ∀ (q : Pins) (v : Bool) (c : Command), takeStep { q.offer c with cmdValid := v } t = takeStep q t

/-- R88, R126, R131: DROP changes nothing, BUSY stays 0, and the framer is ready for the next command. -/
def Obligations.DropChangesNothing : Prop :=
  ∀ (p : Pins) (s : State), p.rst = false → s.phase = .idle → p.cmdValid = true → p.sinkPresent = false →
    takeStep p s = s ∧ busy (takeStep p s) = false ∧ (outputs (takeStep p s)).cmdReady = true

/-- R89: EMIT hands over FrameByte(IDX) with its mark and advances, or moves to FLUSH after offset 15; nothing else
changes; `sink_present` is not looked at; from an ACCEPT there are exactly 16 EMIT steps, of offsets 0 to 15. -/
def Obligations.EmitHandsOverTheByteAtIdx : Prop :=
  (∀ (p : Pins) (s : State), p.rst = false → s.phase = .send → p.txReady = true →
    (s.idx < 15#4 →
      takeStep p s = { s with sinkLog := s.sinkLog ++ [(frameByte s s.idx, false)], idx := s.idx + 1#4 }) ∧
    (s.idx = 15#4 →
      takeStep p s = { s with sinkLog := s.sinkLog ++ [(frameByte s s.idx, true)], idx := 0#4, phase := .flush }) ∧
    busy (takeStep p s) = true ∧
    (∀ v, takeStep { p with sinkPresent := v } s = takeStep p s)) ∧
  (∀ (c : Command) (s : State),
    (∀ j < 16, (stepEmit^[j] (stepAccept c s)).phase = .send ∧ (stepEmit^[j] (stepAccept c s)).idx.toNat = j) ∧
    (stepEmit^[16] (stepAccept c s)).phase = .flush)

/-- R90: COMPLETE counts the flush and returns to IDLE; `flush_done` is looked at only in FLUSH. -/
def Obligations.CompleteCountsTheFlush : Prop :=
  ∀ (p : Pins) (s : State),
    (p.rst = false → s.phase = .flush → p.flushDone = true →
      takeStep p s = { s with flushes := s.flushes + 1, phase := .idle } ∧ busy (takeStep p s) = false ∧
      (outputs (takeStep p s)).cmdReady = true) ∧
    (s.phase = .flush → (outputs s).flushReq = true) ∧
    (s.phase ≠ .flush → ∀ v, takeStep { p with flushDone := v } s = takeStep p s)

/-- R91: HOLD changes no state, so no output either. -/
def Obligations.HoldChangesNothing : Prop :=
  ∀ (p : Pins) (s : State), p.rst = false →
    (s.phase = .idle ∧ p.cmdValid = false) ∨ (s.phase = .send ∧ p.txReady = false) ∨
      (s.phase = .flush ∧ p.flushDone = false) →
    takeStep p s = s ∧ outputs (takeStep p s) = outputs s

/-- R22, R15: the outputs as functions of the state, and exactly one of the three handshake outputs is 1. The last is
marked in R22 as the spec's own inference (from R14). -/
def Obligations.OutputsFollowPhase : Prop :=
  ∀ s : State,
    ((outputs s).cmdReady = true ↔ s.phase = .idle) ∧
    ((outputs s).txValid = true ↔ s.phase = .send) ∧
    ((outputs s).flushReq = true ↔ s.phase = .flush) ∧
    ((outputs s).busy = true ↔ s.phase ≠ .idle) ∧
    ((outputs s).txLast = true ↔ s.phase = .send ∧ s.idx = 15#4) ∧
    (s.phase = .send → (outputs s).txData = some (frameByte s s.idx)) ∧
    ([(outputs s).cmdReady, (outputs s).txValid, (outputs s).flushReq].count true = 1)

/-! ### Checksum and frame -/

/-- R71: the closed form of the checksum and the spec's example. -/
def Obligations.ChecksumIsBasePlusOperands : Prop :=
  (∀ m b e c : Byte, checksum ⟨m, b, e, c⟩ = 0x0044#16 + zext16 m + zext16 b + zext16 e + zext16 c) ∧
  checksum ⟨0x03#8, 0x04#8, 0x04#8, 0x00#8⟩ = 0x004F#16

/-- R73 (a derivation of the spec): the 16-bit sum is the exact sum, with its bounds and the carries into the high
byte. -/
def Obligations.ChecksumNeverWraps : Prop :=
  ∀ m b e c : Byte,
    ∃ total, total = m.toNat + b.toNat + e.toNat + c.toNat ∧
      (checksum ⟨m, b, e, c⟩).toNat = 0x44 + total ∧
      0x44 ≤ (checksum ⟨m, b, e, c⟩).toNat ∧ (checksum ⟨m, b, e, c⟩).toNat ≤ 0x440 ∧
      (hiByte (checksum ⟨m, b, e, c⟩)).toNat = (0x44 + total) / 256 ∧
      (loByte (checksum ⟨m, b, e, c⟩)).toNat = (0x44 + total) % 256 ∧
      (hiByte (checksum ⟨m, b, e, c⟩) ≠ 0#8 ↔ 0xBC ≤ total) ∧
      (hiByte (checksum ⟨m, b, e, c⟩) = 4#8 → (loByte (checksum ⟨m, b, e, c⟩)).toNat ≤ 0x40) ∧
      (checksum ⟨m, b, e, c⟩).extractLsb' 11 5 = 0#5

/-- R81 (a derivation of the spec): two commands have one checksum exactly when their operands have one sum. -/
def Obligations.ChecksumSeesOnlyTheSum : Prop :=
  ∀ c d : Command,
    checksum c = checksum d ↔
      c.mode.toNat + c.startColour.toNat + c.endColour.toNat + c.cycles.toNat =
        d.mode.toNat + d.startColour.toNat + d.endColour.toNat + d.cycles.toNat

/-- R72, R51, R52, R53: the 16 bytes of a frame. -/
def Obligations.FrameLayout : Prop :=
  ∀ m b e c : Byte,
    (frameOf ⟨m, b, e, c⟩).length = 16 ∧
    (frameOf ⟨m, b, e, c⟩).take 10 =
      [0xEF#8, 0x01#8, 0xFF#8, 0xFF#8, 0xFF#8, 0xFF#8, 0x01#8, 0x00#8, 0x07#8, 0x3C#8] ∧
    (frameOf ⟨m, b, e, c⟩)[10]? = some m ∧ (frameOf ⟨m, b, e, c⟩)[11]? = some b ∧
    (frameOf ⟨m, b, e, c⟩)[12]? = some e ∧ (frameOf ⟨m, b, e, c⟩)[13]? = some c ∧
    (frameOf ⟨m, b, e, c⟩)[14]? = some ((checksum ⟨m, b, e, c⟩).extractLsb' 8 8) ∧
    (frameOf ⟨m, b, e, c⟩)[15]? = some ((checksum ⟨m, b, e, c⟩).extractLsb' 0 8)

/-- R18: after an ACCEPT of a command the frame space holds its frame; before and after, offsets 0 to 9 hold the
constants (R17, R51). -/
def Obligations.FrameSpaceHoldsTheAcceptedFrame : Prop :=
  (∀ (c : Command) (s : State), frameSpace (stepAccept c s) = frameOf c) ∧
  (∀ s : State, (frameSpace s).take 10 = fixedBytes)

/-- R44, R30: the big-endian wider view of the frame space. -/
def Obligations.FrameSpaceIsBigEndian : Prop :=
  ∀ s : State,
    memRead s 0 2 = some 0xEF01 ∧ memRead s 2 4 = some 0xFFFFFFFF ∧ memRead s 7 2 = some 0x0007 ∧
    memRead s 14 2 = some s.ck.toNat ∧ memRead s s.idx.toNat 1 = some (frameByte s s.idx).toNat

/-! ### Encoding -/

/-- R63: decoding an encoded instruction gives it back, with every operand at every value. -/
def Obligations.DecodeOfEncode : Prop :=
  ∀ i : Instr, WellFormed i → decode (encode i) = .ok i

/-- R63: the recogniser is the exact inverse of the encoding on its image. -/
def Obligations.DecodeExactlyTheFrames : Prop :=
  ∀ (bs : List Byte) (i : Instr), decode bs = .ok i ↔ WellFormed i ∧ bs = encode i

/-- R63: FrameOf is injective, so no operand bit is lost in the frame. -/
def Obligations.FrameOfInjective : Prop :=
  ∀ c d : Command, frameOf c = frameOf d → c = d

/-- R55 with R63: a 128-bit word matches the mask of SET_LED exactly when bytes 0 to 9 are the fixed ones, and it decodes
exactly when in addition its checksum field is the sum; the bytes and the word view are one to one (R50). The instruction
it decodes to carries bits 47 to 16 as its operands (R50, R52), and is SET_LED.ON exactly when the word matches the mask of
the alias row (R59). That words of the alias row decode to a constructor of their own is the model's reading (log 8). -/
def Obligations.MaskAndChecksumDecideDecoding : Prop :=
  ∀ w : BitVec 128,
    (w &&& 0xFFFFFFFFFFFFFFFFFFFF000000000000#128 = 0xEF01FFFFFFFF0100073C000000000000#128 ↔
      (wordBytes w).take 10 = fixedBytes) ∧
    ((∃ i, decode (wordBytes w) = .ok i) ↔
      w &&& 0xFFFFFFFFFFFFFFFFFFFF000000000000#128 = 0xEF01FFFFFFFF0100073C000000000000#128 ∧
      w.extractLsb' 0 16 = 0x0044#16 + zext16 (w.extractLsb' 40 8) + zext16 (w.extractLsb' 32 8)
        + zext16 (w.extractLsb' 24 8) + zext16 (w.extractLsb' 16 8)) ∧
    (∀ i, decode (wordBytes w) = .ok i →
      i.command = ⟨w.extractLsb' 40 8, w.extractLsb' 32 8, w.extractLsb' 24 8, w.extractLsb' 16 8⟩ ∧
      ((∃ b e c, i = .setLedOn b e c) ↔
        w &&& 0xFFFFFFFFFFFFFFFFFFFFFF0000000000#128 = 0xEF01FFFFFFFF0100073C030000000000#128)) ∧
    bytesWord (wordBytes w) = w

/-- R50, R55, R63: words written out from the format decode to the instruction they stand for, and the vectors Q2 to
Q7 of 95_test_vectors.md are refused for the field they name. That the words with mode 0x03 decode to SET_LED.ON and not to
SET_LED is the model's reading of R59 (log 8); the names of the refusals are the model's (log 9). -/
def Obligations.WrittenWordsDecode : Prop :=
  decode [0xEF#8, 0x01#8, 0xFF#8, 0xFF#8, 0xFF#8, 0xFF#8, 0x01#8, 0x00#8, 0x07#8, 0x3C#8,
    0x03#8, 0x04#8, 0x01#8, 0x05#8, 0x00#8, 0x51#8] = .ok (.setLedOn 0x04#8 0x01#8 0x05#8) ∧
  decode [0xEF#8, 0x01#8, 0xFF#8, 0xFF#8, 0xFF#8, 0xFF#8, 0x01#8, 0x00#8, 0x07#8, 0x3C#8,
    0x02#8, 0x01#8, 0x07#8, 0xFF#8, 0x01#8, 0x4D#8] = .ok (.setLed 0x02#8 0x01#8 0x07#8 0xFF#8) ∧
  decodeTableWord 128 0xEF01FFFFFFFF0100073CFFFFFFFF0440 = some (.setLed 0xFF#8 0xFF#8 0xFF#8 0xFF#8) ∧
  decode (wordBytes 0xEF01FFFFFFFF0100073C030404000058#128) = .error .badChecksum ∧
  decode (wordBytes 0xEF01FFFFFFFF0100073C030404004F00#128) = .error .badChecksum ∧
  decode (wordBytes 0xEF02FFFFFFFF0100073C03040400004F#128) = .error .badHeader ∧
  decode (wordBytes 0xEF01FFFFFFFE0100073C03040400004F#128) = .error .badAddress ∧
  decode (wordBytes 0xEF01FFFFFFFF0700073C030404000055#128) = .error .badPacketId ∧
  decode (wordBytes 0xEF01FFFFFFFF01000735030404000048#128) = .error .badOpcode ∧
  decodeTableWord 128 0xEF01FFFFFFFF0100073C030404000058 = none

/-! ### SET_LED and SET_LED.ON: completion, result, frame. `i` is either constructor of Instr. -/

/-- R70, R74 with the sink ideal from the consuming edge on: both setLed and setLedOn answer the state with the operands
and the checksum latched, the 16 marked bytes appended and one flush counted, and everything else as it was. -/
def Obligations.SetLedCompletesOnIdealSink : Prop :=
  ∀ (i : Instr) (s : State), s.pins.rst = false → s.phase = .idle → s.schedule = [] →
    s.pins.sinkPresent = true → s.pins.txReady = true → s.pins.flushDone = true →
    exec i s = .next { s with
      x0 := i.command.mode, x1 := i.command.startColour, x2 := i.command.endColour, x3 := i.command.cycles
      ck := checksum i.command, idx := 0#4, phase := .idle
      sinkLog := s.sinkLog ++ framePairs i.command, flushes := s.flushes + 1 }

/-- R96 (a derivation of the spec): the two levels agree for setLed and setLedOn. Whatever the sink's stalls, if `rst` stays
0, the sink is present at the consuming edge and the sink is fair to the command from then on (R94(e)), the call returns in
IDLE with exactly the effect of R70's pseudocode, and nothing but the framer's registers and the inputs consumed has
changed. That the inputs keep their last level when the schedule is used up is the model's choice (log 4); that the call is
one step is too (log 6). -/
def Obligations.SetLedAgreesWithTransactionUnderFairSink : Prop :=
  ∀ (i : Instr) (s : State), NoReset s → s.phase = .idle → s.pins.sinkPresent = true →
    FairSink (consume i.command s) →
    ∃ t, exec i s = .next t ∧
      t = { s with
        x0 := i.command.mode, x1 := i.command.startColour, x2 := i.command.endColour, x3 := i.command.cycles
        ck := checksum i.command, idx := 0#4, phase := .idle
        sinkLog := (transact i.command s).sinkLog, flushes := (transact i.command s).flushes
        pins := t.pins, schedule := t.schedule } ∧
      (transact i.command s).sinkLog = s.sinkLog ++ framePairs i.command ∧
      (transact i.command s).flushes = s.flushes + 1 ∧
      t.pins :: t.schedule <:+ s.pins :: s.schedule

/-- R75, R95, R126, R131, R132: with the sink absent at the consuming edge, setLed and setLedOn do nothing and return at
once: exactly one edge passes. No register, no log, no count changes, BUSY stays 0, nothing is offered or requested, and
the call is not kept. How the inputs pass to their next level is the model's choice (log 4). -/
def Obligations.SetLedAbsentSinkIsSilentNoOp : Prop :=
  ∀ (i : Instr) (s : State), s.pins.rst = false → s.phase = .idle → s.pins.sinkPresent = false →
    ∃ t, exec i s = .next t ∧
      (s.schedule = [] → t = s) ∧ (∀ p rest, s.schedule = p :: rest → t = { s with pins := p, schedule := rest }) ∧
      busy t = false ∧ (outputs t).txValid = false ∧ (outputs t).flushReq = false ∧ (outputs t).cmdReady = true

/-- R86, R93(a), R140: while the framer is busy, or in reset, the command is not consumed: one edge passes and the call
is still the host's next action, in the same words. -/
def Obligations.SetLedWaitsWhileBusyOrInReset : Prop :=
  ∀ (i : Instr) (s : State), s.pins.rst = true ∨ s.phase ≠ .idle →
    exec i s = .next (edge { s with agenda := .send (encode i) :: s.agenda })

/-- R36, R39, R82, R96 and the frame of setLed and setLedOn once consumed, for every sink and every schedule, resets in
mid-frame included: what is appended is a first part of the one frame, at most one flush is counted and only after all 16
bytes. Without a reset that part is what PHASE and IDX say: all of it, and the flush counted, once the call has returned;
IDX pairs in SEND; all 16 in FLUSH. The agenda, BlinkState and the constant bytes of the frame space are unchanged, the
inputs pass from the front (log 4), and without a reset the free-value counter is unchanged while x and CK hold the
command. -/
def Obligations.SetLedFrame : Prop :=
  ∀ (i : Instr) (s t : State), s.pins.rst = false → s.phase = .idle → s.pins.sinkPresent = true → exec i s = .next t →
    (∃ j ≤ 16, t.sinkLog = s.sinkLog ++ (framePairs i.command).take j ∧
      (t.flushes = s.flushes ∨ (t.flushes = s.flushes + 1 ∧ j = 16)) ∧
      (NoReset s →
        (t.phase = .idle → j = 16 ∧ t.flushes = s.flushes + 1) ∧
        (t.phase = .send → j = t.idx.toNat ∧ t.flushes = s.flushes) ∧
        (t.phase = .flush → j = 16 ∧ t.flushes = s.flushes))) ∧
    t.agenda = s.agenda ∧ t.blink = s.blink ∧ t.pins :: t.schedule <:+ s.pins :: s.schedule ∧
    (frameSpace t).take 10 = (frameSpace s).take 10 ∧
    (NoReset s → t.free = s.free ∧ t.command = i.command ∧ t.ck = checksum i.command)

/-- R59: SET_LED.ON is SET_LED with the mode byte 0x03, not a second instruction. -/
def Obligations.SetLedOnIsSetLedWithModeOn : Prop :=
  ∀ (b e c : Byte) (s : State), exec (.setLedOn b e c) s = exec (.setLed 0x03#8 b e c) s ∧
    encode (.setLedOn b e c) = encode (.setLed 0x03#8 b e c)

/-- R78, R79: what a command appends to SINK_LOG depends on the command and the inputs only, not on the registers, the
log, the counts or the host's state left by earlier commands. -/
def Obligations.FrameIndependentOfHistory : Prop :=
  ∀ (i : Instr) (s r s' r' : State), s.phase = .idle → r.phase = .idle → s.pins.rst = false →
    r.pins = s.pins → r.schedule = s.schedule → exec i s = .next s' → exec i r = .next r' →
    ∃ sent, s'.sinkLog = s.sinkLog ++ sent ∧ r'.sinkLog = r.sinkLog ++ sent

/-- R96 seen from the ports: the blocking call is the run of clock edges that consumes the command offered on the command
port and goes on until the framer is idle or holds for good: no further edge changes anything then (R91, R97). The bound
on their number, and that exec answers a framer that holds for good, are the model's choice (log 6), with the finite
schedule of log 4; R91 and R97 give no bound. -/
def Obligations.CallIsARunOfEdges : Prop :=
  ∀ (i : Instr) (s : State), s.pins.rst = false → s.phase = .idle → s.pins.cmdValid = true →
    s.pins.command = i.command →
    ∃ k, exec i s = .next (edges k s) ∧ 1 ≤ k ∧ k ≤ s.schedule.length + 18 ∧
      (∀ j, 1 ≤ j → j < k → (edges j s).phase ≠ .idle) ∧
      ((edges k s).phase = .idle ∨ ∀ m, edges m (edges k s) = edges k s)

/-- R97: a sink that never takes a byte keeps the framer in SEND for ever, and one that never confirms a flush keeps it in
FLUSH: no byte more, no flush counted, BUSY 1, no command consumed. The same holds of a call to setLed or setLedOn, with a
sink that is never ready and with one that takes all 16 bytes (R94(e), first half) and never confirms the flush; that exec
then answers the state in which the framer holds, where the host's call never returns, is the model's choice (log 6). -/
def Obligations.SilentSinkHangs : Prop :=
  (∀ (s : State) (k : Nat), s.phase = .send → SinkNeverReady s →
    (edges k s).phase = .send ∧ (edges k s).idx = s.idx ∧ (edges k s).sinkLog = s.sinkLog ∧
    (edges k s).flushes = s.flushes ∧ (outputs (edges k s)).busy = true ∧ (outputs (edges k s)).cmdReady = false) ∧
  (∀ (s : State) (k : Nat), s.phase = .flush → SinkNeverFlushes s →
    (edges k s).phase = .flush ∧ (edges k s).idx = s.idx ∧ (edges k s).sinkLog = s.sinkLog ∧
    (edges k s).flushes = s.flushes ∧ (outputs (edges k s)).busy = true ∧ (outputs (edges k s)).cmdReady = false) ∧
  (∀ (i : Instr) (s : State), s.phase = .idle → s.pins.sinkPresent = true → SinkNeverReady s →
    ∃ t, exec i s = .next t ∧ t.phase = .send ∧ t.idx = 0#4 ∧ t.sinkLog = s.sinkLog ∧ t.flushes = s.flushes ∧
      SinkNeverReady t) ∧
  (∀ (i : Instr) (s : State), s.phase = .idle → s.pins.sinkPresent = true → SinkNeverFlushes s →
    TakesEveryByte (consume i.command s) →
    ∃ t, exec i s = .next t ∧ t.phase = .flush ∧ t.sinkLog = s.sinkLog ++ framePairs i.command ∧
      t.flushes = s.flushes ∧ SinkNeverFlushes t)

/-- R40, R16, R153: while a command is in flight, whatever the operand ports, `cmd_valid` and `sink_present` do at each
edge changes nothing of it: two runs whose inputs agree on `rst`, `tx_ready` and `flush_done` agree on everything but
the input levels themselves. -/
def Obligations.CommandInFlightIsIsolated : Prop :=
  ∀ (n : Nat) (s r : State), s.phase ≠ .idle → r = { s with pins := r.pins, schedule := r.schedule } →
    (r.pins :: r.schedule).map (fun p => (p.rst, p.txReady, p.flushDone)) =
      (s.pins :: s.schedule).map (fun p => (p.rst, p.txReady, p.flushDone)) →
    untilIdle n r =
      { untilIdle n s with pins := (untilIdle n r).pins, schedule := (untilIdle n r).schedule }

/-- R95 (a derivation of the spec): with everything ready and the command kept on the port, the command takes exactly 18
edges: ACCEPT, 16 EMIT, COMPLETE. -/
def Obligations.ShortestCommandTakesEighteenEdges : Prop :=
  ∀ s : State, s.phase = .idle → s.schedule = [] → s.pins.rst = false → s.pins.cmdValid = true →
    s.pins.sinkPresent = true → s.pins.txReady = true → s.pins.flushDone = true →
    (∀ k < 16, (edges (k + 1) s).phase = .send ∧ (edges (k + 1) s).idx.toNat = k ∧
      (edges (k + 1) s).sinkLog = s.sinkLog ++ (framePairs s.pins.command).take k) ∧
    (edges 17 s).phase = .flush ∧ (edges 18 s).phase = .idle ∧
    (edges 18 s).sinkLog = s.sinkLog ++ framePairs s.pins.command ∧ (edges 18 s).flushes = s.flushes + 1

/-! ### The step function -/

/-- R85, R93: when the host's next call decodes to an instruction, the step is that instruction's meaning in the state
with the call taken off the agenda. -/
def Obligations.StepRunsTheDecodedCall : Prop :=
  ∀ (s : State) (frame : List Byte) (rest : List HostAction) (i : Instr),
    s.agenda = .send frame :: rest → decode frame = .ok i → step s = exec i { s with agenda := rest }

/-- R86, R93(c): otherwise the step is one clock edge: with nothing on the agenda, while the caller waits, and before a
client operation while the framer is busy. -/
def Obligations.StepIsAnEdgeWithoutACall : Prop :=
  ∀ (s : State) (rest : List HostAction),
    (s.agenda = [] → step s = .next (edge s)) ∧
    (∀ ms, s.agenda = .wait ms :: rest → busy s = false → step s = .next (edge { s with agenda := rest })) ∧
    (∀ ms, s.agenda = .wait ms :: rest → busy s = true → step s = .next (edge s)) ∧
    (∀ op, s.agenda = .client op :: rest → busy s = true → step s = .next (edge s))

/-- Placing a word of the opcode table where step fetches makes the next step run the instruction it decodes to (the
model's own fetch, log 5). -/
def Obligations.PlacedWordRunsNext : Prop :=
  ∀ (s : State) (nbits w : Nat) (i : Instr), decodeTableWord nbits w = some i →
    step (s.withFetchWord nbits w) =
      exec i { s with pins := { s.pins with rst := false }, phase := .idle, idx := 0#4 }

/-- R125, R56: no step faults, and the machine is refused a step only where the host's next call is no frame at all or a
poll breaks the Clock contract (93 U13); every instruction in every state goes on. -/
def Obligations.OnlyTheHostStopsTheMachine : Prop :=
  (∀ (i : Instr) (s : State), ∃ t, exec i s = .next t) ∧
  (∀ s : State,
    (∃ t, step s = .next t) ∨
    (∃ frame rest why, s.agenda = .send frame :: rest ∧ decode frame = .error why ∧
      step s = .refused (.notACommand why)) ∨
    (∃ now rest, s.agenda = .client (.poll now) :: rest ∧ busy s = false ∧ s.blink.active = true ∧
      now < s.blink.phaseStart ∧ step s = .refused .clockWentBack))

/-! ### Invariants -/

/-- R24: the invariant holds at the start of a run. -/
def Obligations.InvariantAtReset : Prop := Inv State.reset

/-- R24, R96: every step keeps the invariant. -/
def Obligations.StepKeepsInvariant : Prop :=
  ∀ s t : State, Inv s → step s = .next t → Inv t

/-- R24(c), R63: whenever a command is in flight, the frame space is a well-formed frame, that of the latched operands. -/
def Obligations.FrameInFlightIsWellFormed : Prop :=
  ∀ s : State, Inv s → s.phase ≠ .idle →
    frameSpace s = frameOf s.command ∧ decode (frameSpace s) = .ok (Instr.ofCommand s.command)

/-- R25, R99: nothing is accounted for at the start of a run. -/
def Obligations.AccountingAtReset : Prop := AccountedBy [] State.reset

/-- R37, R38, R82, R99 (a derivation of the spec): as long as `rst` stays 0, SINK_LOG is the whole frames of the completed
commands in order, then a first part of the frame in flight, and FLUSHES counts the completed commands; a step completes
at most one more. -/
def Obligations.StepKeepsAccounting : Prop :=
  ∀ (s t : State) (done : List Command), Inv s → NoReset s → AccountedBy done s → step s = .next t →
    NoReset t ∧ ∃ more, more.length ≤ 1 ∧ AccountedBy (done ++ more) t

/-- R99: where a run without a reset is finished, SINK_LOG is exactly the frames of the completed commands, FLUSHES their
number, and every further step leaves both and the run finished, the host's last waits and its calls that send nothing
included. The one step that has no next state is a poll that breaks the Clock contract (log 13). -/
def Obligations.FinishedRunIsWholeFrames : Prop :=
  ∀ (s : State) (done : List Command), AccountedBy done s → Finished s → NoReset s →
    s.sinkLog = done.flatMap framePairs ∧ s.flushes = done.length ∧
    ((∃ t, step s = .next t ∧ AccountedBy done t ∧ Finished t ∧ NoReset t) ∨
      (∃ now rest, s.agenda = .client (.poll now) :: rest ∧ s.blink.active = true ∧ now < s.blink.phaseStart ∧
        step s = .refused .clockWentBack))

/-- R25, R34, R82: no step takes anything back from SINK_LOG or FLUSHES; a step appends at most one frame's 16 bytes and
counts at most one flush. -/
def Obligations.SinkRecordOnlyGrows : Prop :=
  ∀ s t : State, step s = .next t →
    ∃ sent, t.sinkLog = s.sinkLog ++ sent ∧ sent.length ≤ 16 ∧ s.flushes ≤ t.flushes ∧ t.flushes ≤ s.flushes + 1

/-- R98 (a derivation of the spec): the framer and the variant that sums while streaming have the same outputs, SINK_LOG
and FLUSHES after every number of edges. -/
def Obligations.StreamingVariantIsTheSameMachine : Prop :=
  ∀ (k : Nat) (s t : State), StreamRel s t →
    outputs (edges k s) = outputs (edgesStreaming k t) ∧ (edges k s).sinkLog = (edgesStreaming k t).sinkLog ∧
    (edges k s).flushes = (edgesStreaming k t).flushes ∧ StreamRel (edges k s) (edgesStreaming k t)

/-! ### The client software -/

/-- R110: `start`, from any state of the scheduler, between calls of the host. That BlinkState is written before the send
is carried out is the model's choice (log 22). -/
def Obligations.BlinkStartSendsColour : Prop :=
  ∀ (s : State) (rest : List HostAction) (colour : Byte) (onMs offMs : Nat) (now : Timestamp), busy s = false →
    s.agenda = .client (.start colour onMs offMs now) :: rest →
    step s = .next { s with
      blink := { active := true, colour := colour, onMs := onMs, offMs := offMs, phase := .on, phaseStart := now }
      agenda := .send (frameOf (Config.setColorCmd colour)) :: rest }

/-- R111: `stop`, from any state of the scheduler; after it polls are no-ops. That BlinkState is written before the send is
carried out (log 22), and that its other fields keep their values (log 17), are the model's choices. -/
def Obligations.BlinkStopSendsOff : Prop :=
  (∀ (s : State) (rest : List HostAction), busy s = false → s.agenda = .client .stop :: rest →
    step s = .next { s with
      blink := { s.blink with active := false }, agenda := .send (frameOf Config.offCmd) :: rest }) ∧
  (∀ (s : State) (rest : List HostAction) (now : Timestamp), busy s = false → s.blink.active = false →
    s.agenda = .client (.poll now) :: rest → step s = .next { s with agenda := rest })

/-- R112: `poll(now)` between calls of the host: a no-op when inactive; while active, with `now` not before the phase
start, the phase toggles exactly when its duration is over, and the new phase starts at `now`. That BlinkState is written
before the send is carried out is the model's choice (log 22). -/
def Obligations.BlinkPollTogglesWhenDue : Prop :=
  ∀ (s : State) (rest : List HostAction) (now : Timestamp), busy s = false → s.agenda = .client (.poll now) :: rest →
    (s.blink.active = false → step s = .next { s with agenda := rest }) ∧
    (s.blink.active = true → s.blink.phaseStart ≤ now → s.blink.phase = .on →
      (s.blink.phaseStart.toNat + s.blink.onMs ≤ now.toNat → step s = .next { s with
        blink := { s.blink with phase := .off, phaseStart := now }
        agenda := .send (frameOf Config.offCmd) :: rest }) ∧
      (now.toNat < s.blink.phaseStart.toNat + s.blink.onMs → step s = .next { s with agenda := rest })) ∧
    (s.blink.active = true → s.blink.phaseStart ≤ now → s.blink.phase = .off →
      (s.blink.phaseStart.toNat + s.blink.offMs ≤ now.toNat → step s = .next { s with
        blink := { s.blink with phase := .on, phaseStart := now }
        agenda := .send (frameOf (Config.setColorCmd s.blink.colour)) :: rest }) ∧
      (now.toNat < s.blink.phaseStart.toNat + s.blink.offMs → step s = .next { s with agenda := rest }))

/-- R113, R114: one poll sends at most one command, and a second poll at the same time sends none when both durations are
positive, however long the first was late. -/
def Obligations.BlinkPollNeverBursts : Prop :=
  ∀ (now : Timestamp) (b : BlinkState), (blinkPoll now b).2.length ≤ 1 ∧
    (0 < b.onMs → 0 < b.offMs → blinkPoll now (blinkPoll now b).1 = ((blinkPoll now b).1, []))

/-- R116, R119, R120, R121, R122: the commands the client's helpers issue, in order, with the waits left out. The tuples
of setColor and off, and the operands a fade or a breathing command is not given, are open (log 12). -/
def Obligations.HelpersIssueTheirCommands : Prop :=
  ∀ (colour : Byte) (onMs offMs n : Nat) (colours : List Byte) (b : BlinkState),
    callsOf (clientEffect (.runFixedCycles colour onMs offMs n) b).2 =
      (List.replicate n [.send (frameOf (Config.setColorCmd colour)), .send (frameOf Config.offCmd)]).flatten ∧
    callsOf (clientEffect (.flashBlocking colour onMs offMs n) b).2 =
      (List.replicate n [.send (frameOf (Config.setColorCmd colour)), .send (frameOf Config.offCmd)]).flatten ∧
    callsOf (clientEffect (.colorCycle colours onMs) b).2 =
      colours.map (fun c => .send (frameOf (Config.setColorCmd c))) ∧
    (0 < n → ∃ c : Command, c.mode = Config.modeCode .breathing ∧ c.cycles = 1#8 ∧
      callsOf (clientEffect (.breathingFixedCycles colour onMs n) b).2 = List.replicate n (.send (frameOf c))) ∧
    (∃ c : Command, c.mode = Config.modeCode .breathing ∧ c.cycles = 0#8 ∧
      (clientEffect (.breathingFixedCycles colour onMs 0) b).2 = [.send (frameOf c)]) ∧
    (∃ c : Command, c.mode = Config.modeCode .fadeIn ∧ (clientEffect (.fadeIn colour) b).2 = [.send (frameOf c)]) ∧
    (∃ c : Command, c.mode = Config.modeCode .fadeOut ∧ (clientEffect (.fadeOut colour) b).2 = [.send (frameOf c)])

/-- R62, R106, R121, R122: the client operations that send one command, run between calls of the host: that one call comes
next, no wait with it, and BlinkState is as it was. The command of setColor and of off is a parameter; of the others the
spec gives the mode, and for the infinite breathing the cycles byte (log 12). -/
def Obligations.SingleCommandHelpersSendOne : Prop :=
  ∀ (s : State) (rest : List HostAction) (colour : Byte) (perCycleMs : Nat), busy s = false →
    (s.agenda = .client (.setColor colour) :: rest →
      step s = .next { s with agenda := .send (frameOf (Config.setColorCmd colour)) :: rest }) ∧
    (s.agenda = .client .off :: rest → step s = .next { s with agenda := .send (frameOf Config.offCmd) :: rest }) ∧
    (s.agenda = .client (.fadeIn colour) :: rest →
      ∃ c : Command, c.mode = Config.modeCode .fadeIn ∧
        step s = .next { s with agenda := .send (frameOf c) :: rest }) ∧
    (s.agenda = .client (.fadeOut colour) :: rest →
      ∃ c : Command, c.mode = Config.modeCode .fadeOut ∧
        step s = .next { s with agenda := .send (frameOf c) :: rest }) ∧
    (s.agenda = .client (.breathingFixedCycles colour perCycleMs 0) :: rest →
      ∃ c : Command, c.mode = Config.modeCode .breathing ∧ c.cycles = 0#8 ∧
        step s = .next { s with agenda := .send (frameOf c) :: rest })

/-- R116, R118, R119, R120, R122: the blocking helpers, run between calls of the host: their calls and waits, in the order
the rules give, come before whatever the host had to do next. The wait after the last `off()` of runFixedCycles and after
the last colour of colorCycle, and what runFixedCycles leaves in BlinkState, are open (log 14); the operands of the
breathing command are too (log 12). -/
def Obligations.BlockingHelpersRunTheirSequences : Prop :=
  ∀ (s : State) (rest : List HostAction) (colour last : Byte) (colours : List Byte) (onMs offMs n : Nat),
    busy s = false →
    (s.agenda = .client (.flashBlocking colour onMs offMs n) :: rest →
      step s = .next { s with agenda :=
        (List.replicate n [.send (frameOf (Config.setColorCmd colour)), .wait onMs,
          .send (frameOf Config.offCmd), .wait offMs]).flatten ++ rest }) ∧
    (s.agenda = .client (.breathingFixedCycles colour onMs (n + 1)) :: rest →
      ∃ c : Command, c.mode = Config.modeCode .breathing ∧ c.cycles = 1#8 ∧
        step s = .next { s with agenda :=
          (List.replicate (n + 1) [.send (frameOf c), .wait onMs]).flatten ++ rest }) ∧
    (s.agenda = .client (.runFixedCycles colour onMs offMs (n + 1)) :: rest →
      ∃ (b : BlinkState) (trailing : List HostAction), (trailing = [] ∨ trailing = [.wait offMs]) ∧
        step s = .next { s with
          blink := b
          agenda :=
            (List.replicate n [.send (frameOf (Config.setColorCmd colour)), .wait onMs,
              .send (frameOf Config.offCmd), .wait offMs]).flatten ++
            [.send (frameOf (Config.setColorCmd colour)), .wait onMs, .send (frameOf Config.offCmd)] ++
            trailing ++ rest }) ∧
    (s.agenda = .client (.colorCycle (colours ++ [last]) onMs) :: rest →
      ∃ trailing : List HostAction, (trailing = [] ∨ trailing = [.wait onMs]) ∧
        step s = .next { s with agenda :=
          (colours.flatMap (fun c => [.send (frameOf (Config.setColorCmd c)), .wait onMs]) ++
            [.send (frameOf (Config.setColorCmd last))] ++ trailing ++ rest) })

/-- R108 ("mutated only by `start`, `stop`, and `poll`"): a step changes BlinkState only where it runs one of these three
between calls of the host, or runFixedCycles, of which R116 leaves it open (log 14); the change is that operation's. So no
clock edge, no command, no reset and no other helper changes it. -/
def Obligations.BlinkStateChangesByItsOperationsOnly : Prop :=
  ∀ s t : State, step s = .next t → t.blink ≠ s.blink →
    ∃ (op : ClientOp) (rest : List HostAction),
      s.agenda = .client op :: rest ∧ busy s = false ∧ t.blink = (clientEffect op s.blink).1 ∧
      ((∃ colour onMs offMs now, op = .start colour onMs offMs now) ∨ op = .stop ∨ (∃ now, op = .poll now) ∨
        (∃ colour onMs offMs n, op = .runFixedCycles colour onMs offMs n))
end

