-- ==== Sys2Proof/Laws/Frame.lean ====
section
/-! SUPPORT. Shape lemmas of frames: their lengths, their marks, and the byte at each offset. -/

namespace Sys2Proof

/-! ### Bytes of a 16-bit value -/

@[simp] theorem hiByte_joinBytes (hi lo : Byte) : hiByte (joinBytes hi lo) = hi := by
  ext i h
  have h1 : 8 + i < 16 := by omega
  simp [hiByte, joinBytes, h1, BitVec.getLsbD_eq_getElem h]

@[simp] theorem loByte_joinBytes (hi lo : Byte) : loByte (joinBytes hi lo) = lo := by
  ext i h
  have h1 : i < 16 := by omega
  simp [loByte, joinBytes, h, h1]

@[simp] theorem joinBytes_hiByte_loByte (h : Half) : joinBytes (hiByte h) (loByte h) = h := by
  ext i hi
  by_cases h8 : i < 8
  · simp [hiByte, loByte, joinBytes, h8, BitVec.getLsbD_eq_getElem hi]
  · have e : 8 + (i - 8) = i := by omega
    have l : i - 8 < 8 := by omega
    simp [hiByte, loByte, joinBytes, h8, e, l, BitVec.getLsbD_eq_getElem hi]

/-! ### Marks and lengths -/

@[simp] theorem markLast_length (bs : List Byte) : (markLast bs).length = bs.length := by
  induction bs with
  | nil => rfl
  | cons b bs ih => simp [markLast, ih]

/-- Dropping the marks gives the bytes back. -/
@[simp] theorem markLast_map_fst (bs : List Byte) : (markLast bs).map Prod.fst = bs := by
  induction bs with
  | nil => rfl
  | cons b bs ih => simp [markLast, ih]

/-- The mark stands on the final byte only. -/
theorem markLast_getElem (bs : List Byte) (k : Nat) (h : k < bs.length) :
    (markLast bs)[k]'(by simpa using h) = (bs[k], k + 1 == bs.length) := by
  induction bs generalizing k with
  | nil => simp at h
  | cons b bs ih =>
    cases k with
    | zero => cases bs <;> simp [markLast]
    | succ k =>
      simp [markLast]
      rw [ih k (by simpa using h)]

@[simp] theorem frameOf_length (c : Command) : (frameOf c).length = 16 := rfl

@[simp] theorem framePairs_length (c : Command) : (framePairs c).length = 16 := rfl

@[simp] theorem encode_length (i : Instr) : (encode i).length = 16 := rfl

@[simp] theorem wordBytes_length (w : BitVec 128) : (wordBytes w).length = 16 := rfl

@[simp] theorem ofCommand_command (c : Command) : (Instr.ofCommand c).command = c := by
  obtain ⟨m, b, e, k⟩ := c
  by_cases h : m = Config.modeOn <;> simp [Instr.ofCommand, Instr.command, h]

namespace Machine

@[simp] theorem frameSpace_length (s : State) : (frameSpace s).length = 16 := rfl

/-- The frame space reads FrameByte at each offset (R18). -/
theorem frameSpace_getElem (s : State) (k : Nat) (h : k < 16) :
    (frameSpace s)[k]'(by simpa using h) = frameByte s (BitVec.ofNat 4 k) := by
  simp [frameSpace]

/-- One write of all the bytes appends them with their marks (R70, R74). -/
theorem sinkWriteAll_eq (bs : List Byte) (s : State) :
    sinkWriteAll bs s = { s with sinkLog := s.sinkLog ++ markLast bs } := by
  induction bs generalizing s with
  | nil => simp [sinkWriteAll, markLast]
  | cons b bs ih =>
    rw [sinkWriteAll, ih]
    simp [sinkWrite, markLast]

/-- What is in flight depends on PHASE, IDX and the operand registers only. -/
theorem inFlight_congr {s t : State} (hp : t.phase = s.phase) (hi : t.idx = s.idx) (hc : t.command = s.command) :
    t.inFlight = s.inFlight := by
  simp [State.inFlight, hp, hi, hc]

/-- The frame space depends on the operand registers and CK only. -/
theorem frameByte_congr {s t : State} (hc : t.command = s.command) (hk : t.ck = s.ck) (k : Offset) :
    frameByte t k = frameByte s k := by
  simp only [State.command, Command.mk.injEq] at hc
  obtain ⟨h0, h1, h2, h3⟩ := hc
  simp only [frameByte, h0, h1, h2, h3, hk]

end Machine

end Sys2Proof
end

