-- ==== Sys2Proof/Laws/State.lean ====
section
/-! SUPPORT. One lemma per field per update of the state: the shared operations and the six steps read field by field.
Proofs use these instead of unfolding a record update. -/

namespace Sys2Proof.Machine

/-! ### The sink -/

@[simp] theorem sinkWrite_x0 (b : Byte) (l : Bool) (s : State) : (sinkWrite b l s).x0 = s.x0 := rfl
@[simp] theorem sinkWrite_x1 (b : Byte) (l : Bool) (s : State) : (sinkWrite b l s).x1 = s.x1 := rfl
@[simp] theorem sinkWrite_x2 (b : Byte) (l : Bool) (s : State) : (sinkWrite b l s).x2 = s.x2 := rfl
@[simp] theorem sinkWrite_x3 (b : Byte) (l : Bool) (s : State) : (sinkWrite b l s).x3 = s.x3 := rfl
@[simp] theorem sinkWrite_ck (b : Byte) (l : Bool) (s : State) : (sinkWrite b l s).ck = s.ck := rfl
@[simp] theorem sinkWrite_idx (b : Byte) (l : Bool) (s : State) : (sinkWrite b l s).idx = s.idx := rfl
@[simp] theorem sinkWrite_phase (b : Byte) (l : Bool) (s : State) : (sinkWrite b l s).phase = s.phase := rfl
@[simp] theorem sinkWrite_sinkLog (b : Byte) (l : Bool) (s : State) : (sinkWrite b l s).sinkLog = s.sinkLog ++ [(b, l)] := rfl
@[simp] theorem sinkWrite_flushes (b : Byte) (l : Bool) (s : State) : (sinkWrite b l s).flushes = s.flushes := rfl
@[simp] theorem sinkWrite_pins (b : Byte) (l : Bool) (s : State) : (sinkWrite b l s).pins = s.pins := rfl
@[simp] theorem sinkWrite_schedule (b : Byte) (l : Bool) (s : State) : (sinkWrite b l s).schedule = s.schedule := rfl
@[simp] theorem sinkWrite_agenda (b : Byte) (l : Bool) (s : State) : (sinkWrite b l s).agenda = s.agenda := rfl
@[simp] theorem sinkWrite_blink (b : Byte) (l : Bool) (s : State) : (sinkWrite b l s).blink = s.blink := rfl
@[simp] theorem sinkWrite_free (b : Byte) (l : Bool) (s : State) : (sinkWrite b l s).free = s.free := rfl

/-! ### The flush -/

@[simp] theorem sinkFlush_x0 (s : State) : (sinkFlush s).x0 = s.x0 := rfl
@[simp] theorem sinkFlush_x1 (s : State) : (sinkFlush s).x1 = s.x1 := rfl
@[simp] theorem sinkFlush_x2 (s : State) : (sinkFlush s).x2 = s.x2 := rfl
@[simp] theorem sinkFlush_x3 (s : State) : (sinkFlush s).x3 = s.x3 := rfl
@[simp] theorem sinkFlush_ck (s : State) : (sinkFlush s).ck = s.ck := rfl
@[simp] theorem sinkFlush_idx (s : State) : (sinkFlush s).idx = s.idx := rfl
@[simp] theorem sinkFlush_phase (s : State) : (sinkFlush s).phase = s.phase := rfl
@[simp] theorem sinkFlush_sinkLog (s : State) : (sinkFlush s).sinkLog = s.sinkLog := rfl
@[simp] theorem sinkFlush_flushes (s : State) : (sinkFlush s).flushes = s.flushes + 1 := rfl
@[simp] theorem sinkFlush_pins (s : State) : (sinkFlush s).pins = s.pins := rfl
@[simp] theorem sinkFlush_schedule (s : State) : (sinkFlush s).schedule = s.schedule := rfl
@[simp] theorem sinkFlush_agenda (s : State) : (sinkFlush s).agenda = s.agenda := rfl
@[simp] theorem sinkFlush_blink (s : State) : (sinkFlush s).blink = s.blink := rfl
@[simp] theorem sinkFlush_free (s : State) : (sinkFlush s).free = s.free := rfl

/-! ### Named conditions -/

@[simp] theorem raise_eq (k : Condition) (s : State) : raise k s = s := rfl

/-! ### The operand registers -/

@[simp] theorem latchOperands_x0 (c : Command) (s : State) : (latchOperands c s).x0 = c.mode := rfl
@[simp] theorem latchOperands_x1 (c : Command) (s : State) : (latchOperands c s).x1 = c.startColour := rfl
@[simp] theorem latchOperands_x2 (c : Command) (s : State) : (latchOperands c s).x2 = c.endColour := rfl
@[simp] theorem latchOperands_x3 (c : Command) (s : State) : (latchOperands c s).x3 = c.cycles := rfl
@[simp] theorem latchOperands_ck (c : Command) (s : State) : (latchOperands c s).ck = s.ck := rfl
@[simp] theorem latchOperands_idx (c : Command) (s : State) : (latchOperands c s).idx = s.idx := rfl
@[simp] theorem latchOperands_phase (c : Command) (s : State) : (latchOperands c s).phase = s.phase := rfl
@[simp] theorem latchOperands_sinkLog (c : Command) (s : State) : (latchOperands c s).sinkLog = s.sinkLog := rfl
@[simp] theorem latchOperands_flushes (c : Command) (s : State) : (latchOperands c s).flushes = s.flushes := rfl
@[simp] theorem latchOperands_pins (c : Command) (s : State) : (latchOperands c s).pins = s.pins := rfl
@[simp] theorem latchOperands_schedule (c : Command) (s : State) : (latchOperands c s).schedule = s.schedule := rfl
@[simp] theorem latchOperands_agenda (c : Command) (s : State) : (latchOperands c s).agenda = s.agenda := rfl
@[simp] theorem latchOperands_blink (c : Command) (s : State) : (latchOperands c s).blink = s.blink := rfl
@[simp] theorem latchOperands_free (c : Command) (s : State) : (latchOperands c s).free = s.free := rfl

/-! ### RESET; x and CK are free values -/

@[simp] theorem stepReset_x0 (s : State) : (stepReset s).x0 = Config.freeByte s.free := rfl
@[simp] theorem stepReset_x1 (s : State) : (stepReset s).x1 = Config.freeByte (s.free + 1) := rfl
@[simp] theorem stepReset_x2 (s : State) : (stepReset s).x2 = Config.freeByte (s.free + 2) := rfl
@[simp] theorem stepReset_x3 (s : State) : (stepReset s).x3 = Config.freeByte (s.free + 3) := rfl
@[simp] theorem stepReset_ck (s : State) : (stepReset s).ck = Config.freeHalf (s.free + 4) := rfl
@[simp] theorem stepReset_idx (s : State) : (stepReset s).idx = 0#4 := rfl
@[simp] theorem stepReset_phase (s : State) : (stepReset s).phase = .idle := rfl
@[simp] theorem stepReset_sinkLog (s : State) : (stepReset s).sinkLog = s.sinkLog := rfl
@[simp] theorem stepReset_flushes (s : State) : (stepReset s).flushes = s.flushes := rfl
@[simp] theorem stepReset_pins (s : State) : (stepReset s).pins = s.pins := rfl
@[simp] theorem stepReset_schedule (s : State) : (stepReset s).schedule = s.schedule := rfl
@[simp] theorem stepReset_agenda (s : State) : (stepReset s).agenda = s.agenda := rfl
@[simp] theorem stepReset_blink (s : State) : (stepReset s).blink = s.blink := rfl
@[simp] theorem stepReset_free (s : State) : (stepReset s).free = s.free + 5 := rfl

/-! ### ACCEPT -/

@[simp] theorem stepAccept_x0 (c : Command) (s : State) : (stepAccept c s).x0 = c.mode := rfl
@[simp] theorem stepAccept_x1 (c : Command) (s : State) : (stepAccept c s).x1 = c.startColour := rfl
@[simp] theorem stepAccept_x2 (c : Command) (s : State) : (stepAccept c s).x2 = c.endColour := rfl
@[simp] theorem stepAccept_x3 (c : Command) (s : State) : (stepAccept c s).x3 = c.cycles := rfl
@[simp] theorem stepAccept_ck (c : Command) (s : State) : (stepAccept c s).ck = Config.ckBase + zext16 c.mode + zext16 c.startColour + zext16 c.endColour + zext16 c.cycles := rfl
@[simp] theorem stepAccept_idx (c : Command) (s : State) : (stepAccept c s).idx = 0#4 := rfl
@[simp] theorem stepAccept_phase (c : Command) (s : State) : (stepAccept c s).phase = .send := rfl
@[simp] theorem stepAccept_sinkLog (c : Command) (s : State) : (stepAccept c s).sinkLog = s.sinkLog := rfl
@[simp] theorem stepAccept_flushes (c : Command) (s : State) : (stepAccept c s).flushes = s.flushes := rfl
@[simp] theorem stepAccept_pins (c : Command) (s : State) : (stepAccept c s).pins = s.pins := rfl
@[simp] theorem stepAccept_schedule (c : Command) (s : State) : (stepAccept c s).schedule = s.schedule := rfl
@[simp] theorem stepAccept_agenda (c : Command) (s : State) : (stepAccept c s).agenda = s.agenda := rfl
@[simp] theorem stepAccept_blink (c : Command) (s : State) : (stepAccept c s).blink = s.blink := rfl
@[simp] theorem stepAccept_free (c : Command) (s : State) : (stepAccept c s).free = s.free := rfl

/-! ### COMPLETE -/

@[simp] theorem stepComplete_x0 (s : State) : (stepComplete s).x0 = s.x0 := rfl
@[simp] theorem stepComplete_x1 (s : State) : (stepComplete s).x1 = s.x1 := rfl
@[simp] theorem stepComplete_x2 (s : State) : (stepComplete s).x2 = s.x2 := rfl
@[simp] theorem stepComplete_x3 (s : State) : (stepComplete s).x3 = s.x3 := rfl
@[simp] theorem stepComplete_ck (s : State) : (stepComplete s).ck = s.ck := rfl
@[simp] theorem stepComplete_idx (s : State) : (stepComplete s).idx = s.idx := rfl
@[simp] theorem stepComplete_phase (s : State) : (stepComplete s).phase = .idle := rfl
@[simp] theorem stepComplete_sinkLog (s : State) : (stepComplete s).sinkLog = s.sinkLog := rfl
@[simp] theorem stepComplete_flushes (s : State) : (stepComplete s).flushes = s.flushes + 1 := rfl
@[simp] theorem stepComplete_pins (s : State) : (stepComplete s).pins = s.pins := rfl
@[simp] theorem stepComplete_schedule (s : State) : (stepComplete s).schedule = s.schedule := rfl
@[simp] theorem stepComplete_agenda (s : State) : (stepComplete s).agenda = s.agenda := rfl
@[simp] theorem stepComplete_blink (s : State) : (stepComplete s).blink = s.blink := rfl
@[simp] theorem stepComplete_free (s : State) : (stepComplete s).free = s.free := rfl

/-! ### DROP and HOLD -/

@[simp] theorem stepDrop_eq (s : State) : stepDrop s = s := rfl
@[simp] theorem stepHold_eq (s : State) : stepHold s = s := rfl

/-! ### EMIT -/

@[simp] theorem stepEmit_x0 (s : State) : (stepEmit s).x0 = s.x0 := by unfold stepEmit; dsimp only; split <;> rfl
@[simp] theorem stepEmit_x1 (s : State) : (stepEmit s).x1 = s.x1 := by unfold stepEmit; dsimp only; split <;> rfl
@[simp] theorem stepEmit_x2 (s : State) : (stepEmit s).x2 = s.x2 := by unfold stepEmit; dsimp only; split <;> rfl
@[simp] theorem stepEmit_x3 (s : State) : (stepEmit s).x3 = s.x3 := by unfold stepEmit; dsimp only; split <;> rfl
@[simp] theorem stepEmit_ck (s : State) : (stepEmit s).ck = s.ck := by unfold stepEmit; dsimp only; split <;> rfl
@[simp] theorem stepEmit_sinkLog (s : State) : (stepEmit s).sinkLog = s.sinkLog ++ [(frameByte s s.idx, s.idx == 15#4)] := by unfold stepEmit; dsimp only; split <;> rfl
@[simp] theorem stepEmit_flushes (s : State) : (stepEmit s).flushes = s.flushes := by unfold stepEmit; dsimp only; split <;> rfl
@[simp] theorem stepEmit_pins (s : State) : (stepEmit s).pins = s.pins := by unfold stepEmit; dsimp only; split <;> rfl
@[simp] theorem stepEmit_schedule (s : State) : (stepEmit s).schedule = s.schedule := by unfold stepEmit; dsimp only; split <;> rfl
@[simp] theorem stepEmit_agenda (s : State) : (stepEmit s).agenda = s.agenda := by unfold stepEmit; dsimp only; split <;> rfl
@[simp] theorem stepEmit_blink (s : State) : (stepEmit s).blink = s.blink := by unfold stepEmit; dsimp only; split <;> rfl
@[simp] theorem stepEmit_free (s : State) : (stepEmit s).free = s.free := by unfold stepEmit; dsimp only; split <;> rfl

/-! ### The next input levels -/

@[simp] theorem nextPins_x0 (s : State) : (nextPins s).x0 = s.x0 := by unfold nextPins; split <;> rfl
@[simp] theorem nextPins_x1 (s : State) : (nextPins s).x1 = s.x1 := by unfold nextPins; split <;> rfl
@[simp] theorem nextPins_x2 (s : State) : (nextPins s).x2 = s.x2 := by unfold nextPins; split <;> rfl
@[simp] theorem nextPins_x3 (s : State) : (nextPins s).x3 = s.x3 := by unfold nextPins; split <;> rfl
@[simp] theorem nextPins_ck (s : State) : (nextPins s).ck = s.ck := by unfold nextPins; split <;> rfl
@[simp] theorem nextPins_idx (s : State) : (nextPins s).idx = s.idx := by unfold nextPins; split <;> rfl
@[simp] theorem nextPins_phase (s : State) : (nextPins s).phase = s.phase := by unfold nextPins; split <;> rfl
@[simp] theorem nextPins_sinkLog (s : State) : (nextPins s).sinkLog = s.sinkLog := by unfold nextPins; split <;> rfl
@[simp] theorem nextPins_flushes (s : State) : (nextPins s).flushes = s.flushes := by unfold nextPins; split <;> rfl
@[simp] theorem nextPins_agenda (s : State) : (nextPins s).agenda = s.agenda := by unfold nextPins; split <;> rfl
@[simp] theorem nextPins_blink (s : State) : (nextPins s).blink = s.blink := by unfold nextPins; split <;> rfl
@[simp] theorem nextPins_free (s : State) : (nextPins s).free = s.free := by unfold nextPins; split <;> rfl

/-! ### The inputs and the host under the framer's step -/

@[simp] theorem takeStep_pins (p : Pins) (s : State) : (takeStep p s).pins = s.pins := by unfold takeStep; split <;> simp
@[simp] theorem takeStep_schedule (p : Pins) (s : State) : (takeStep p s).schedule = s.schedule := by unfold takeStep; split <;> simp
@[simp] theorem takeStep_agenda (p : Pins) (s : State) : (takeStep p s).agenda = s.agenda := by unfold takeStep; split <;> simp
@[simp] theorem takeStep_blink (p : Pins) (s : State) : (takeStep p s).blink = s.blink := by unfold takeStep; split <;> simp

/-! ### The operand ports -/

@[simp] theorem offer_rst (c : Command) (p : Pins) : (p.offer c).rst = p.rst := rfl
@[simp] theorem offer_cmdValid (c : Command) (p : Pins) : (p.offer c).cmdValid = true := rfl
@[simp] theorem offer_sinkPresent (c : Command) (p : Pins) : (p.offer c).sinkPresent = p.sinkPresent := rfl
@[simp] theorem offer_txReady (c : Command) (p : Pins) : (p.offer c).txReady = p.txReady := rfl
@[simp] theorem offer_flushDone (c : Command) (p : Pins) : (p.offer c).flushDone = p.flushDone := rfl
@[simp] theorem offer_command (c : Command) (p : Pins) : (p.offer c).command = c := rfl

end Sys2Proof.Machine
end

