-- ==== Sys2Proof/Laws/Framer.lean ====
section
/-! SUPPORT. What one framer step and one clock edge can do: the inversion lemma of takeStep over the table of R86, the
effect of each row, and the passage of the inputs. -/

namespace Sys2Proof.Machine

/-! ### The rows of R86 -/

theorem takeStep_reset {p : Pins} {s : State} (h : p.rst = true) : takeStep p s = stepReset s := by
  simp [takeStep, selectStep, h]

theorem takeStep_accept {p : Pins} {s : State} (hr : p.rst = false) (hp : s.phase = .idle) (hv : p.cmdValid = true)
    (hs : p.sinkPresent = true) : takeStep p s = stepAccept p.command s := by
  simp [takeStep, selectStep, hr, hp, hv, hs]

theorem takeStep_drop {p : Pins} {s : State} (hr : p.rst = false) (hp : s.phase = .idle) (hv : p.cmdValid = true)
    (hs : p.sinkPresent = false) : takeStep p s = s := by
  simp [takeStep, selectStep, hr, hp, hv, hs]

theorem takeStep_emit {p : Pins} {s : State} (hr : p.rst = false) (hp : s.phase = .send) (ht : p.txReady = true) :
    takeStep p s = stepEmit s := by
  simp [takeStep, selectStep, hr, hp, ht]

theorem takeStep_complete {p : Pins} {s : State} (hr : p.rst = false) (hp : s.phase = .flush)
    (hf : p.flushDone = true) : takeStep p s = stepComplete s := by
  simp [takeStep, selectStep, hr, hp, hf]

/-- Every step is one of the six, with the row of the table that selects it. -/
theorem takeStep_cases (p : Pins) (s : State) :
    (p.rst = true ∧ takeStep p s = stepReset s) ∨
    (p.rst = false ∧ s.phase = .idle ∧ p.cmdValid = true ∧ p.sinkPresent = true ∧
      takeStep p s = stepAccept p.command s) ∨
    (p.rst = false ∧ s.phase = .idle ∧ p.cmdValid = true ∧ p.sinkPresent = false ∧ takeStep p s = s) ∨
    (p.rst = false ∧ s.phase = .send ∧ p.txReady = true ∧ takeStep p s = stepEmit s) ∨
    (p.rst = false ∧ s.phase = .flush ∧ p.flushDone = true ∧ takeStep p s = stepComplete s) ∨
    (p.rst = false ∧ ((s.phase = .idle ∧ p.cmdValid = false) ∨ (s.phase = .send ∧ p.txReady = false) ∨
      (s.phase = .flush ∧ p.flushDone = false)) ∧ takeStep p s = s) := by
  cases hr : p.rst
  · cases hp : s.phase
    · cases hv : p.cmdValid
      · simp [takeStep, selectStep, hr, hp, hv]
      · cases hs : p.sinkPresent <;> simp [takeStep, selectStep, hr, hp, hv, hs]
    · cases ht : p.txReady <;> simp [takeStep, selectStep, hr, hp, ht]
    · cases hf : p.flushDone <;> simp [takeStep, selectStep, hr, hp, hf]
  · simp [takeStep, selectStep, hr]

/-- Step selection looks only at `rst`, and in each phase at that phase's own inputs. -/
theorem takeStep_busy_congr {p q : Pins} {s : State} (hb : s.phase ≠ .idle) (hr : q.rst = p.rst)
    (ht : q.txReady = p.txReady) (hf : q.flushDone = p.flushDone) : takeStep q s = takeStep p s := by
  cases hp : s.phase
  · exact absurd hp hb
  · cases h1 : p.rst <;> cases h2 : p.txReady <;> simp [takeStep, selectStep, hr, hp, ht, h1, h2]
  · cases h1 : p.rst <;> cases h2 : p.flushDone <;> simp [takeStep, selectStep, hr, hp, hf, h1, h2]

/-! ### EMIT -/

theorem stepEmit_of_lt {s : State} (h : s.idx < 15#4) :
    stepEmit s = { s with sinkLog := s.sinkLog ++ [(frameByte s s.idx, false)], idx := s.idx + 1#4 } := by
  have hne : (s.idx == 15#4) = false := by
    rw [beq_eq_false_iff_ne]
    intro he
    exact absurd h (by rw [he]; decide)
  simp [stepEmit, h, hne, sinkWrite]

theorem stepEmit_of_last {s : State} (h : s.idx = 15#4) :
    stepEmit s =
      { s with sinkLog := s.sinkLog ++ [(frameByte s s.idx, true)], idx := 0#4, phase := .flush } := by
  simp [stepEmit, h, sinkWrite]

/-- An offset is below 15 or is 15. -/
theorem offset_lt_or_last (k : Offset) : k < 15#4 ∨ k = 15#4 := by
  revert k
  decide

/-! ### The inputs from edge to edge -/

/-- The passage to the next edge changes the inputs only. -/
theorem nextPins_eq (s : State) :
    nextPins s = { s with pins := (nextPins s).pins, schedule := (nextPins s).schedule } := by
  unfold nextPins
  split <;> rfl

/-- The inputs pass from the front. -/
theorem nextPins_inputs_suffix (s : State) :
    (nextPins s).pins :: (nextPins s).schedule <:+ s.pins :: s.schedule := by
  unfold nextPins
  split
  · exact List.suffix_refl _
  · next p rest e => exact e ▸ List.suffix_cons _ _

theorem nextPins_schedule_suffix (s : State) : (nextPins s).schedule <:+ s.schedule := by
  unfold nextPins
  split
  · exact List.suffix_refl _
  · next p rest e => exact e ▸ ⟨[p], rfl⟩

/-- The levels the inputs keep in the end are not changed by an edge. -/
theorem steadyPins_nextPins (s : State) : steadyPins (nextPins s) = steadyPins s := by
  unfold nextPins steadyPins
  split
  · rfl
  · next p rest e => rw [e]; exact List.getLastD_cons.symm

/-- What the edge leaves on the ports and in the schedule is what the state before it had listed. -/
theorem edge_schedule_suffix (s : State) : (edge s).schedule <:+ s.schedule := by
  simpa [edge] using nextPins_schedule_suffix (takeStep s.pins s)

theorem edge_schedule_length (s : State) : (edge s).schedule.length = s.schedule.length - 1 := by
  unfold edge nextPins
  split <;> simp_all

theorem steadyPins_edge (s : State) : steadyPins (edge s) = steadyPins s := by
  rw [edge, steadyPins_nextPins]
  simp [steadyPins]

@[simp] theorem edge_agenda (s : State) : (edge s).agenda = s.agenda := by simp [edge]

@[simp] theorem edge_blink (s : State) : (edge s).blink = s.blink := by simp [edge]

theorem edges_succ (k : Nat) (s : State) : edges (k + 1) s = edges k (edge s) := rfl

theorem edges_add (j k : Nat) (s : State) : edges (j + k) s = edges k (edges j s) := by
  induction j generalizing s with
  | zero => simp [edges]
  | succ j ih => rw [Nat.succ_add, edges_succ, edges_succ, ih]

/-! ### The blocking call -/

theorem untilIdle_idle {s : State} (h : s.phase = .idle) (n : Nat) : untilIdle n s = s := by
  cases n with
  | zero => rfl
  | succ n => simp [untilIdle, h]

theorem untilIdle_busy {s : State} (h : s.phase ≠ .idle) (n : Nat) : untilIdle (n + 1) s = untilIdle n (edge s) := by
  cases hp : s.phase <;> simp_all [untilIdle]

/-- A property that holds of a state and that every clock edge of a busy framer keeps holds when the call returns. -/
theorem untilIdle_induct {P : State → Prop} (hstep : ∀ s, s.phase ≠ .idle → P s → P (edge s)) :
    ∀ (n : Nat) (s : State), P s → P (untilIdle n s) := by
  intro n
  induction n with
  | zero => exact fun _ h => h
  | succ n ih =>
    intro s hs
    by_cases hp : s.phase = .idle
    · rwa [untilIdle_idle hp]
    · rw [untilIdle_busy hp]
      exact ih _ (hstep s hp hs)

/-- The call's wait is a run of clock edges that stops at the first idle state. -/
theorem untilIdle_eq_edges (n : Nat) (s : State) :
    ∃ k ≤ n, untilIdle n s = edges k s ∧ ∀ j < k, (edges j s).phase ≠ .idle := by
  induction n generalizing s with
  | zero => exact ⟨0, le_refl _, rfl, by simp⟩
  | succ n ih =>
    by_cases hp : s.phase = .idle
    · exact ⟨0, by omega, untilIdle_idle hp _, by simp⟩
    · obtain ⟨k, hk, he, hb⟩ := ih (edge s)
      refine ⟨k + 1, by omega, by rw [untilIdle_busy hp, he]; rfl, fun j hj => ?_⟩
      cases j with
      | zero => exact hp
      | succ j => exact hb j (by omega)

/-- The call's wait, once it has outlived the schedule, is at the levels that the inputs keep. -/
theorem untilIdle_steady (n : Nat) (s : State) (hn : s.schedule.length ≤ n) (hb : (untilIdle n s).phase ≠ .idle) :
    (untilIdle n s).schedule = [] ∧ (untilIdle n s).pins = steadyPins s := by
  induction n generalizing s with
  | zero =>
    have he : s.schedule = [] := List.length_eq_zero_iff.mp (by omega)
    exact ⟨he, by simp [untilIdle, steadyPins, he]⟩
  | succ n ih =>
    by_cases hp : s.phase = .idle
    · rw [untilIdle_idle hp] at hb
      exact absurd hp hb
    · rw [untilIdle_busy hp] at hb ⊢
      rw [← steadyPins_edge]
      exact ih _ (by have := edge_schedule_length s; omega) hb

/-- A state that an edge does not change is where the call's wait stays. -/
theorem untilIdle_fixed {s : State} (h : edge s = s) (n : Nat) : untilIdle n s = s := by
  induction n with
  | zero => rfl
  | succ n ih =>
    by_cases hp : s.phase = .idle
    · exact untilIdle_idle hp _
    · rw [untilIdle_busy hp, h, ih]

theorem edges_fixed {s : State} (h : edge s = s) (n : Nat) : edges n s = s := by
  induction n with
  | zero => rfl
  | succ n ih => rw [edges_succ, h, ih]

theorem untilIdle_add (m n : Nat) (s : State) : untilIdle (m + n) s = untilIdle n (untilIdle m s) := by
  induction m generalizing s with
  | zero => simp [untilIdle]
  | succ m ih =>
    by_cases hp : s.phase = .idle
    · simp [untilIdle_idle hp]
    · rw [untilIdle_busy hp, show m + 1 + n = (m + n) + 1 by omega, untilIdle_busy hp, ih]

/-- How many EMIT and COMPLETE steps the command in flight still needs (R95). -/
def stepsToIdle (s : State) : Nat :=
  match s.phase with
  | .idle => 0
  | .send => 17 - s.idx.toNat
  | .flush => 1

theorem stepsToIdle_le (s : State) : stepsToIdle s ≤ 17 := by unfold stepsToIdle; split <;> omega

theorem stepsToIdle_stepEmit {s : State} (hp : s.phase = .send) : stepsToIdle (stepEmit s) < stepsToIdle s := by
  rcases offset_lt_or_last s.idx with h | h
  · rw [stepEmit_of_lt h]
    rw [BitVec.lt_def] at h
    simp [stepsToIdle, hp, BitVec.toNat_add] at *
    omega
  · simp [stepEmit_of_last h, stepsToIdle, hp, h]

/-- The bound of callBound is enough: after it the framer is idle or no edge changes anything (log 6). -/
theorem untilIdle_settles (n : Nat) (s : State) (h : s.schedule.length + stepsToIdle s ≤ n) :
    (untilIdle n s).phase = .idle ∨ edge (untilIdle n s) = untilIdle n s := by
  induction n generalizing s with
  | zero =>
    have := s.idx.isLt
    cases hp : s.phase <;> simp [stepsToIdle, hp] at h
    · exact .inl hp
    · omega
  | succ n ih =>
    by_cases hp : s.phase = .idle
    · exact .inl (by rwa [untilIdle_idle hp])
    have hw : stepsToIdle (edge s) = stepsToIdle (takeStep s.pins s) := by simp [stepsToIdle, edge]
    have hlen := edge_schedule_length s
    rcases takeStep_cases s.pins s with ⟨-, e⟩ | ⟨-, hi, -, -, -⟩ | ⟨-, hi, -, -, -⟩ | ⟨-, hs, -, e⟩ |
      ⟨-, hf, -, e⟩ | ⟨-, -, e⟩
    · have he : (edge s).phase = .idle := by simp [edge, e]
      exact .inl (by rw [untilIdle_busy hp, untilIdle_idle he, he])
    · exact absurd hi hp
    · exact absurd hi hp
    · rw [untilIdle_busy hp]
      have := stepsToIdle_stepEmit hs
      exact ih _ (by rw [hw, e]; omega)
    · rw [untilIdle_busy hp]
      exact ih _ (by rw [hw, e]; simp [stepsToIdle, hf] at h ⊢; omega)
    · cases hq : s.schedule with
      | nil =>
        have he : edge s = s := by simp [edge, e, nextPins, hq]
        exact .inr (by rw [untilIdle_fixed he, he])
      | cons p rest =>
        rw [untilIdle_busy hp]
        exact ih _ (by rw [hw, e]; simp [hq] at hlen h; omega)

/-- A sink that takes bytes in the end meets the first half of R94(e). -/
theorem takesEveryByte_of_steady {s : State} (h : (steadyPins s).txReady = true) : TakesEveryByte s := by
  intro k hk
  refine ⟨k + s.schedule.length, by omega, ?_⟩
  have hv := hk (k + s.schedule.length) (by omega)
  rw [(untilIdle_steady _ s (by omega) (by intro hp; simp [outputs, hp] at hv)).2]
  exact h

/-- A sink that confirms flushes in the end meets the second half of R94(e). -/
theorem confirmsTheFlush_of_steady {s : State} (h : (steadyPins s).flushDone = true) : ConfirmsTheFlush s := by
  intro k hk
  refine ⟨k + s.schedule.length, by omega, ?_⟩
  have hv := hk (k + s.schedule.length) (by omega)
  rw [(untilIdle_steady _ s (by omega) (by intro hp; simp [outputs, hp] at hv)).2]
  exact h

theorem issue_consumed {c : Command} {s : State} (hr : s.pins.rst = false) (hp : s.phase = .idle) :
    issue c s = untilIdle (callBound (consume c s)) (consume c s) := by
  simp [issue, hr, hp]

theorem issue_waits {c : Command} {s : State} (h : s.pins.rst = true ∨ s.phase ≠ .idle) :
    issue c s = waitToIssue c s := by
  unfold issue
  split
  · rfl
  · split
    · simp_all
    · rfl

end Sys2Proof.Machine
end

