-- ==== Sys2Proof/Laws/PerInstr.lean ====
section
/-! SUPPORT. The per-instruction family FrameShape: the words of every instruction are one 16-byte frame with the fixed
bytes 0 to 9 and its operands in order (R50, R51, R52). -/

namespace Sys2Proof.Laws.FrameShape

/-- The encoding of `i` is 16 bytes, begins with the fixed bytes, and carries the operands of `i` next. -/
def Statement (i : Instr) : Prop :=
  (encode i).length = 16 ∧ (encode i).take 10 = fixedBytes ∧
    ((encode i).drop 10).take 4 =
      [i.command.mode, i.command.startColour, i.command.endColour, i.command.cycles]

theorem setLed (m b e c : Byte) : Statement (.setLed m b e c) := ⟨rfl, rfl, rfl⟩

theorem setLedOn (b e c : Byte) : Statement (.setLedOn b e c) := ⟨rfl, rfl, rfl⟩

end Sys2Proof.Laws.FrameShape
end

