-- ==== Sys2Proof/Laws/Step.lean ====
section
/-! SUPPORT. What a step can do: the inversion lemma of step over the host's agenda. -/

namespace Sys2Proof.Machine

/-- exec is the blocking call of the instruction's command, for both constructors. -/
theorem exec_eq (i : Instr) (s : State) : exec i s = .next (issue i.command s) := by
  cases i <;> rfl

/-- A client call that is not refused: its BlinkState and its actions, nothing else. -/
theorem runClient_next {op : ClientOp} {s t : State} (h : runClient op s = .next t) :
    clockInOrder op s.blink = true ∧
      t = { s with blink := (clientEffect op s.blink).1, agenda := (clientEffect op s.blink).2 ++ s.agenda } := by
  unfold runClient at h
  split at h
  · exact ⟨‹_›, by simpa using h.symm⟩
  · simp at h

/-- Every step that answers a next state is a clock edge, perhaps with a wait taken off the agenda, a blocking call, or a
client operation between calls. -/
theorem step_cases {s t : State} (h : step s = .next t) :
    (∃ rest, (s.agenda = rest ∨ ∃ ms, s.agenda = .wait ms :: rest ∧ busy s = false) ∧
      t = edge { s with agenda := rest }) ∨
    (∃ frame rest i, s.agenda = .send frame :: rest ∧ decode frame = .ok i ∧
      t = issue i.command { s with agenda := rest }) ∨
    (∃ op rest, s.agenda = .client op :: rest ∧ busy s = false ∧ clockInOrder op s.blink = true ∧
      t = { s with blink := (clientEffect op s.blink).1, agenda := (clientEffect op s.blink).2 ++ rest }) := by
  unfold step runAgenda at h
  split at h
  · exact .inl ⟨s.agenda, .inl rfl, by simpa using h.symm⟩
  · next frame rest ha =>
    unfold runCall at h
    split at h
    · next i hi =>
      rw [exec_eq] at h
      exact .inr (.inl ⟨frame, rest, i, ha, hi, by simpa using h.symm⟩)
    · simp at h
  · next ms rest ha =>
    split at h
    · exact .inl ⟨s.agenda, .inl rfl, by simpa using h.symm⟩
    · exact .inl ⟨rest, .inr ⟨ms, ha, by simpa using ‹¬busy s = true›⟩, by simpa using h.symm⟩
  · next op rest ha =>
    split at h
    · exact .inl ⟨s.agenda, .inl rfl, by simpa using h.symm⟩
    · obtain ⟨hc, ht⟩ := runClient_next h
      exact .inr (.inr ⟨op, rest, ha, by simpa using ‹¬busy s = true›, hc, ht⟩)

/-- A client operation between calls, with the Clock contract kept: its BlinkState, and its actions before the rest. -/
theorem step_client {s : State} {op : ClientOp} {rest : List HostAction} (hb : busy s = false)
    (ha : s.agenda = .client op :: rest) (hc : clockInOrder op s.blink = true) :
    step s = .next { s with
      blink := (clientEffect op s.blink).1, agenda := (clientEffect op s.blink).2 ++ rest } := by
  simp [step, runAgenda, ha, hb, runClient, hc]

/-- Waits before the rest of the host's actions offer no command. -/
theorem offersNoCommand_waits {waits : List HostAction} (h : waits.all isWait = true) (rest : List HostAction)
    (b : BlinkState) : offersNoCommand (waits ++ rest) b = offersNoCommand rest b := by
  induction waits with
  | nil => rfl
  | cons a waits ih =>
    rw [List.all_cons, Bool.and_eq_true] at h
    cases a with
    | wait ms => exact ih h.2
    | send f => exact absurd h.1 (by simp [isWait])
    | client op => exact absurd h.1 (by simp [isWait])

end Sys2Proof.Machine
end

