-- ==== Sys2Proof/Tests/Slice0.lean ====
section
/-! SUPPORT. Tests and witnesses. Expected values are the vectors of spec/95_test_vectors.md (S, V, Q, T, Z numbers)
or sums by hand from R71; the witnesses show states that meet the hypotheses of the statements. -/

namespace Sys2Proof.Tests

open Sys2Proof.Machine

/-! ### Small states -/

/-- `SET_LED 03, 04, 04, 00`, vector V1. -/
def v1 : Command := ⟨0x03#8, 0x04#8, 0x04#8, 0x00#8⟩

/-- V1 in flight at offset k, as in vectors T4 to T19, with the bytes before k already taken. -/
def flying (k : Offset) : State :=
  { State.reset with
    x0 := 0x03#8, x1 := 0x04#8, x2 := 0x04#8, x3 := 0x00#8, ck := 0x004F#16, idx := k, phase := .send
    sinkLog := (framePairs v1).take k.toNat }

/-- V1 handed over and waiting for its flush, as in T15 and T16. -/
def flushing : State := { flying 0#4 with phase := .flush, sinkLog := framePairs v1 }

/-- Ideal inputs with V1 on the command port. -/
def offered : Pins := Pins.idealSink.offer v1

/-- Reset with V1 offered at every edge. -/
def offering : State := { State.reset with pins := offered }

/-- The sink absent. -/
def noSink : Pins := { Pins.idealSink with sinkPresent := false }

/-- The sink present but silent. -/
def silent : Pins := { Pins.idealSink with txReady := false, flushDone := false }

/-- A sink that takes bytes and never confirms a flush. -/
def noFlush : Pins := { Pins.idealSink with flushDone := false }

/-- The inputs in reset. -/
def inReset : Pins := { offered with rst := true }

/-- A property of the next state, false for the other outcomes. -/
def nextIs (o : Host.Outcome State Fault Refusal) (p : State → Bool) : Bool :=
  match o with
  | .next t => p t
  | .fault _ => false
  | .refused _ => false

/-! ### WellFormed -/

/-- The words of SET_LED 03 belong to the row SET_LED.ON. -/
theorem test_wellFormed_refuses_second_spelling : ¬ WellFormed (.setLed 0x03#8 0x04#8 0x04#8 0x00#8) := by decide

theorem test_wellFormed_takes_other_modes : WellFormed (.setLed 0xFF#8 0xFF#8 0xFF#8 0xFF#8) := by decide

/-! ### Encodings, from R50 and R55 -/

/-- The table's pattern with m = 02, s = 01, e = 07, c = FF and k = 0x44 + 0x109 = 0x014D. -/
theorem test_decode_setLed : decodeTableWord 128
    0b11101111000000011111111111111111111111111111111100000001000000000000011100111100000000100000000100000111111111110000000101001101
      = some (.setLed 0x02#8 0x01#8 0x07#8 0xFF#8) := by decide

/-- The table's pattern of the alias row with s = 04, e = 01, c = 05 and k = 0x51 (vector V20). -/
theorem test_decode_setLedOn : decodeTableWord 128
    0b11101111000000011111111111111111111111111111111100000001000000000000011100111100000000110000010000000001000001010000000001010001
      = some (.setLedOn 0x04#8 0x01#8 0x05#8) := by decide

/-- Vectors Q2 and Q4 to Q7, and a 15-byte string. -/
theorem test_decode_rejects_by_name :
    decode (fixedBytes ++ [0x03#8, 0x04#8, 0x04#8, 0x00#8, 0x00#8, 0x58#8]) = .error .badChecksum ∧
    decode ((encode (.setLedOn 0x04#8 0x04#8 0x00#8)).set 1 0x02#8) = .error .badHeader ∧
    decode ((encode (.setLedOn 0x04#8 0x04#8 0x00#8)).set 5 0xFE#8) = .error .badAddress ∧
    decode ((encode (.setLedOn 0x04#8 0x04#8 0x00#8)).set 6 0x07#8) = .error .badPacketId ∧
    decode ((encode (.setLedOn 0x04#8 0x04#8 0x00#8)).set 8 0x08#8) = .error .badLength ∧
    decode ((encode (.setLedOn 0x04#8 0x04#8 0x00#8)).set 9 0x35#8) = .error .badOpcode ∧
    decode (fixedBytes ++ [0x03#8, 0x04#8, 0x04#8, 0x00#8, 0x00#8]) = .error .wrongLength := by decide

/-- The rows of the opcode table match their own words (R55). -/
theorem test_table_rows_match : opcodeTable.map (fun r => r.matchesWord 0xEF01FFFFFFFF0100073C03040400004F#128) =
    [true, true] ∧ opcodeTable.map (fun r => r.matchesWord 0xEF01FFFFFFFF0100073C040404000050#128) = [true, false] := by
  decide

/-- Vectors V2, V3, V4, V5, V7, V15: both ends, the carries, and the top bit of every operand. -/
theorem test_checksum_vectors :
    checksum ⟨0x00#8, 0x00#8, 0x00#8, 0x00#8⟩ = 0x0044#16 ∧ checksum ⟨0xFF#8, 0xFF#8, 0xFF#8, 0xFF#8⟩ = 0x0440#16 ∧
    checksum ⟨0xBB#8, 0x00#8, 0x00#8, 0x00#8⟩ = 0x00FF#16 ∧ checksum ⟨0xBC#8, 0x00#8, 0x00#8, 0x00#8⟩ = 0x0100#16 ∧
    checksum ⟨0xFF#8, 0x00#8, 0x00#8, 0x00#8⟩ = 0x0143#16 ∧ checksum ⟨0x80#8, 0x80#8, 0x80#8, 0x80#8⟩ = 0x0244#16 := by
  decide

/-! ### Commands -/

/-- Vector V17: colours above 0x07 pass through. -/
theorem test_setLed_appends_frame :
    nextIs (exec (.setLed 0x01#8 0xFF#8 0x80#8 0x10#8) State.reset) (fun t =>
      t.sinkLog.map Prod.fst == [0xEF#8, 0x01#8, 0xFF#8, 0xFF#8, 0xFF#8, 0xFF#8, 0x01#8, 0x00#8, 0x07#8, 0x3C#8,
        0x01#8, 0xFF#8, 0x80#8, 0x10#8, 0x01#8, 0xD4#8] && t.flushes == 1) = true := by decide

/-- Vector S1, with the mark on the sixteenth byte only. -/
theorem test_setLedOn_marks_last_byte :
    nextIs (exec (.setLedOn 0x04#8 0x04#8 0x00#8) State.reset) (fun t =>
      t.sinkLog.drop 13 == [(0x00#8, false), (0x00#8, false), (0x4F#8, true)] &&
      (t.sinkLog.take 15).all (fun q => !q.2)) = true := by decide

/-- Vector X2: the sink absent. -/
theorem test_setLed_dropped :
    nextIs (exec (.setLed 0xFF#8 0xFF#8 0xFF#8 0xFF#8) { State.reset with pins := noSink })
      (fun t => t == { State.reset with pins := noSink }) = true := by decide

/-- A stall of the sink before the first byte and a reset three edges later: no byte is taken (R142). -/
theorem test_setLedOn_reset_in_call :
    nextIs (exec (.setLedOn 0x04#8 0x04#8 0x00#8)
        { State.reset with schedule := [silent, silent, inReset, Pins.idealSink] })
      (fun t => t.phase == .idle && t.sinkLog == [] && t.flushes == 0) = true := by decide

/-- The first instruction after reset, placed where it is fetched. -/
theorem test_step_runs_placed_word :
    nextIs (step (State.reset.withFetchWord 128 0xEF01FFFFFFFF0100073C03040400004F))
      (fun t => t.sinkLog == framePairs v1 && t.agenda == []) = true := by decide

/-! ### Single steps, vectors T1, T2, T8, T13, T14, T16, T19, T20, T22 -/

theorem test_accept : edge offering = { flying 0#4 with pins := offered } := by decide

theorem test_drop : edge { offering with pins := noSink.offer v1 } = { offering with pins := noSink.offer v1 } := by
  decide

theorem test_hold_keeps_byte_offered :
    edge { flying 7#4 with pins := silent } = { flying 7#4 with pins := silent } ∧
    (outputs (flying 7#4)).txData = some 0x00#8 := by decide

theorem test_emit_checksum_bytes :
    (edge (flying 14#4)).sinkLog = (flying 14#4).sinkLog ++ [(0x00#8, false)] ∧ (edge (flying 14#4)).idx = 15#4 ∧
    (edge (flying 15#4)).sinkLog = (flying 15#4).sinkLog ++ [(0x4F#8, true)] ∧ (edge (flying 15#4)).phase = .flush := by
  decide

theorem test_complete : (edge flushing).phase = .idle ∧ (edge flushing).flushes = 1 := by decide

theorem test_reset_edges :
    (edge { flying 9#4 with pins := inReset }).sinkLog.map Prod.fst =
      [0xEF#8, 0x01#8, 0xFF#8, 0xFF#8, 0xFF#8, 0xFF#8, 0x01#8, 0x00#8, 0x07#8] ∧
    (edge { flushing with pins := inReset }).flushes = 0 ∧
    (edge { State.reset with pins := inReset }).phase = .idle := by decide

/-! ### Client software, S2, S3 and the starvation trace of 95_test_vectors.md section 2.6 -/

/-- For timestamps of whatever width that read as the vectors' times. -/
theorem test_poll_trace (t0 t99 t100 t350 : Timestamp) (h0 : t0.toNat = 0) (h99 : t99.toNat = 99)
    (h100 : t100.toNat = 100) (h350 : t350.toNat = 350) :
    blinkPoll t99 (blinkStart 0x04#8 100 50 t0) = (blinkStart 0x04#8 100 50 t0, []) ∧
    (blinkPoll t100 (blinkStart 0x04#8 100 50 t0)).1.phase = .off ∧
    (blinkPoll t350 (blinkStart 0x04#8 100 100 t0)).1.phaseStart = t350 ∧
    (blinkPoll t350 (blinkStart 0x04#8 100 100 t0)).2 = [sendOff] := by
  simp [blinkPoll, blinkStart, elapsed, h0, h99, h100, h350]

theorem test_poll_clock_went_back (now started : Timestamp) (h : now < started) :
    runClient (.poll now) { State.reset with blink := blinkStart 0x04#8 100 50 started } =
      .refused .clockWentBack := by
  simp [runClient, clockInOrder, blinkStart, BitVec.not_le.mpr h]

/-! ### Witnesses: states that meet the hypotheses of the statements, one for each clause -/

theorem witness_ResetEdgeTransfersNothing : inReset.rst = true ∧ takeStep inReset (flying 9#4) = stepReset (flying 9#4) :=
  ⟨rfl, rfl⟩

theorem inv_flying (k : Offset) : Inv (flying k) := by
  refine ⟨nofun, nofun, fun _ => ?_, fun _ => ?_, List.suffix_refl _⟩
  · change 0x004F#16 = 0x0044#16 + zext16 0x03#8 + zext16 0x04#8 + zext16 0x04#8 + zext16 0x00#8
    decide
  · change (0x004F#16).extractLsb' 11 5 = 0#5
    decide

theorem inv_flushing : Inv flushing :=
  ⟨nofun, fun _ => rfl, fun _ => (by decide), fun _ => (by decide), List.suffix_refl _⟩

/-- ResetInMidFrameTruncates: in SEND at both ends of IDX, and in FLUSH. -/
theorem witness_ResetInMidFrameTruncates :
    (Inv { flying 0#4 with pins := inReset } ∧ Inv { flying 15#4 with pins := inReset } ∧
      (flying 15#4).phase = .send) ∧ (Inv { flushing with pins := inReset } ∧ flushing.phase = .flush) := by
  refine ⟨⟨?_, ?_, rfl⟩, ?_, rfl⟩
  · exact ⟨nofun, nofun, (inv_flying 0#4).ck_sum, (inv_flying 0#4).ck_top, (inv_flying 0#4).log_tail⟩
  · exact ⟨nofun, nofun, (inv_flying 15#4).ck_sum, (inv_flying 15#4).ck_top, (inv_flying 15#4).log_tail⟩
  · exact ⟨nofun, fun _ => rfl, inv_flushing.ck_sum, inv_flushing.ck_top, inv_flushing.log_tail⟩

/-- StepSelectionFollowsTable: inputs and a state for each of its rows. -/
theorem witness_StepSelectionFollowsTable :
    (offered.rst = false ∧ State.reset.phase = .idle ∧ offered.cmdValid = true ∧ offered.sinkPresent = true) ∧
    ((noSink.offer v1).cmdValid = true ∧ (noSink.offer v1).sinkPresent = false) ∧ Pins.idealSink.cmdValid = false ∧
    ((flying 3#4).phase = .send ∧ offered.txReady = true ∧ silent.txReady = false) ∧
    (flushing.phase = .flush ∧ offered.flushDone = true ∧ silent.flushDone = false ∧ silent.rst = false) ∧
    inReset.rst = true := by decide

theorem witness_AcceptLatchesOperandsAndChecksum :
    offered.rst = false ∧ State.reset.phase = .idle ∧ offered.cmdValid = true ∧ offered.sinkPresent = true := by decide

theorem witness_DropChangesNothing : (noSink.offer v1).rst = false ∧ State.reset.phase = .idle ∧
    (noSink.offer v1).cmdValid = true ∧ (noSink.offer v1).sinkPresent = false := by decide

/-- EmitHandsOverTheByteAtIdx: offsets 14 and 15, where its clauses meet. -/
theorem witness_EmitHandsOverTheByteAtIdx :
    Pins.idealSink.rst = false ∧ Pins.idealSink.txReady = true ∧ (flying 14#4).phase = .send ∧
    (flying 14#4).idx < 15#4 ∧ (flying 15#4).phase = .send ∧ (flying 15#4).idx = 15#4 := by decide

theorem witness_CompleteCountsTheFlush : Pins.idealSink.rst = false ∧ flushing.phase = .flush ∧
    Pins.idealSink.flushDone = true ∧ (flying 3#4).phase ≠ .flush := by decide

theorem witness_HoldChangesNothing : silent.rst = false ∧ (State.reset.phase = .idle ∧ silent.cmdValid = false) ∧
    ((flying 7#4).phase = .send ∧ silent.txReady = false) ∧ (flushing.phase = .flush ∧ silent.flushDone = false) := by
  decide

/-- ChecksumSeesOnlyTheSum and FrameOfInjective: V1 and V19 have one sum and two frames. -/
theorem witness_same_sum_other_frame : checksum v1 = checksum ⟨0x00#8, 0x00#8, 0x00#8, 0x0B#8⟩ ∧
    frameOf v1 ≠ frameOf ⟨0x00#8, 0x00#8, 0x00#8, 0x0B#8⟩ ∧ frameOf v1 = frameOf v1 := by decide

theorem witness_DecodeOfEncode :
    WellFormed (.setLed 0x00#8 0xFF#8 0x00#8 0xFF#8) ∧ WellFormed (.setLedOn 0xFF#8 0x00#8 0xFF#8) := by decide

theorem witness_DecodeExactlyTheFrames : decode (frameOf v1) = .ok (.setLedOn 0x04#8 0x04#8 0x00#8) := by decide

theorem witness_SetLedCompletesOnIdealSink :
    State.reset.pins.rst = false ∧ State.reset.phase = .idle ∧ State.reset.schedule = [] ∧
    State.reset.pins.sinkPresent = true ∧ State.reset.pins.txReady = true ∧ State.reset.pins.flushDone = true := by
  decide

/-- A sink that stalls at the first two edges after the command is consumed. -/
def stalling : State := { State.reset with schedule := [silent, silent, Pins.idealSink] }

theorem witness_SetLedAgreesWithTransactionUnderFairSink :
    NoReset stalling ∧ stalling.phase = .idle ∧ stalling.pins.sinkPresent = true ∧ FairSink (consume v1 stalling) :=
  ⟨⟨rfl, by decide⟩, rfl, rfl, takesEveryByte_of_steady rfl, confirmsTheFlush_of_steady rfl⟩

/-- A sink that confirms the one flush and falls silent afterwards is fair to the command in flight. -/
theorem witness_FairSink_silent_afterwards :
    FairSink { flushing with schedule := [silent] } ∧ (steadyPins { flushing with schedule := [silent] }).flushDone = false :=
  ⟨⟨fun k hk => absurd (hk (k + 1) (by omega)) (by
      rw [untilIdle_busy (by decide), untilIdle_idle (by decide)]; decide),
    fun k hk => absurd (hk (k + 1) (by omega)) (by
      rw [untilIdle_busy (by decide), untilIdle_idle (by decide)]; decide)⟩, rfl⟩

theorem witness_SetLedAbsentSinkIsSilentNoOp : noSink.rst = false ∧
    ({ State.reset with pins := noSink } : State).phase = .idle ∧ noSink.sinkPresent = false ∧
    ({ State.reset with pins := noSink } : State).schedule = [] ∧
    ({ State.reset with pins := noSink, schedule := [silent] } : State).schedule = silent :: [] := by decide

theorem witness_SetLedWaitsWhileBusyOrInReset :
    (inReset.rst = true ∧ ({ State.reset with pins := inReset } : State).phase = .idle) ∧ (flying 0#4).phase ≠ .idle ∧
    flushing.phase ≠ .idle := by decide

/-- SetLedFrame: a call that returns, one that holds in SEND at offset 5 and one that holds in FLUSH, without reset. -/
theorem witness_SetLedFrame : stalling.pins.rst = false ∧ stalling.phase = .idle ∧ stalling.pins.sinkPresent = true ∧
    NoReset stalling ∧
    nextIs (exec (.setLed 0x02#8 0x01#8 0x01#8 0x03#8) stalling) (fun t => t.phase == .idle) = true ∧
    nextIs (exec (.setLed 0x02#8 0x01#8 0x01#8 0x03#8)
        { State.reset with schedule := List.replicate 5 Pins.idealSink ++ [silent] })
      (fun t => t.phase == .send && t.idx == 5#4) = true ∧
    nextIs (exec (.setLed 0x02#8 0x01#8 0x01#8 0x03#8) { State.reset with pins := noFlush })
      (fun t => t.phase == .flush) = true :=
  ⟨rfl, rfl, rfl, ⟨rfl, by decide⟩, by decide, by decide, by decide⟩

/-- FrameIndependentOfHistory: two idle states with other registers, logs and counts. -/
theorem witness_FrameIndependentOfHistory :
    State.reset.phase = .idle ∧ (edge flushing).phase = .idle ∧ State.reset.pins.rst = false ∧
    (edge flushing).pins = State.reset.pins ∧ (edge flushing).schedule = State.reset.schedule ∧
    (edge flushing).ck ≠ State.reset.ck := by decide

theorem witness_CallIsARunOfEdges : offering.pins.rst = false ∧ offering.phase = .idle ∧ offering.pins.cmdValid = true ∧
    offering.pins.command = (Instr.setLedOn 0x04#8 0x04#8 0x00#8).command := by decide

/-- SilentSinkHangs: in SEND, in FLUSH, and the two calls. -/
theorem witness_SilentSinkHangs :
    SinkNeverReady { flying 3#4 with pins := silent } ∧ SinkNeverFlushes { flushing with pins := silent } ∧
    (SinkNeverReady { State.reset with pins := silent } ∧ silent.sinkPresent = true) ∧
    (SinkNeverFlushes { State.reset with pins := noFlush } ∧ noFlush.sinkPresent = true ∧
      TakesEveryByte (consume v1 { State.reset with pins := noFlush })) :=
  ⟨⟨rfl, rfl, nofun⟩, ⟨rfl, rfl, nofun⟩, ⟨⟨rfl, rfl, nofun⟩, rfl⟩, ⟨rfl, rfl, nofun⟩, rfl, takesEveryByte_of_steady rfl⟩

/-- CommandInFlightIsIsolated: other operands, another offer and the sink withdrawn. -/
theorem witness_CommandInFlightIsIsolated :
    (flying 3#4).phase ≠ .idle ∧
    ({ flying 3#4 with pins := noSink.offer ⟨0xFF#8, 0xFF#8, 0xFF#8, 0xFF#8⟩ } : State).pins ≠ (flying 3#4).pins ∧
    (noSink.offer v1).rst = Pins.idealSink.rst ∧ (noSink.offer v1).txReady = Pins.idealSink.txReady ∧
    (noSink.offer v1).flushDone = Pins.idealSink.flushDone := by decide

theorem witness_ShortestCommandTakesEighteenEdges :
    offering.phase = .idle ∧ offering.schedule = [] ∧ offering.pins.rst = false ∧ offering.pins.cmdValid = true ∧
    offering.pins.sinkPresent = true ∧ offering.pins.txReady = true ∧ offering.pins.flushDone = true := by decide

/-- StepRunsTheDecodedCall. -/
theorem witness_StepRunsTheDecodedCall :
    ({ State.reset with agenda := [.send (frameOf v1)] } : State).agenda = .send (frameOf v1) :: [] ∧
    decode (frameOf v1) = .ok (.setLedOn 0x04#8 0x04#8 0x00#8) := by decide

/-- StepIsAnEdgeWithoutACall: idle and busy, with a wait and with a client call at the head. -/
theorem witness_StepIsAnEdgeWithoutACall :
    State.reset.agenda = [] ∧
    (busy { State.reset with agenda := [.wait 10] } = false ∧ busy { flying 0#4 with agenda := [.wait 10] } = true) ∧
    busy { flushing with agenda := [.client .stop] } = true := by decide

theorem witness_PlacedWordRunsNext :
    decodeTableWord 128 0xEF01FFFFFFFF0100073C000000000044 = some (.setLed 0x00#8 0x00#8 0x00#8 0x00#8) := by decide

/-- OnlyTheHostStopsTheMachine: both stops can happen. -/
theorem witness_OnlyTheHostStopsTheMachine :
    (match step { State.reset with agenda := [.send []] } with
      | .refused r => r == Refusal.notACommand .wrongLength
      | .next _ => false) = true ∧
    (∀ now started : Timestamp, now < started →
      step { State.reset with agenda := [.client (.poll now)], blink := blinkStart 0x04#8 1 1 started } =
        .refused .clockWentBack) :=
  ⟨by decide, fun now started h => by
    simp [step, runAgenda, busy, State.reset, runClient, clockInOrder, blinkStart, BitVec.not_le.mpr h]⟩

theorem inv_reset : Inv State.reset := ⟨fun _ => rfl, nofun, fun h => absurd rfl h, fun h => absurd rfl h, List.nil_suffix⟩

/-- StepKeepsInvariant and FrameInFlightIsWellFormed: in each PHASE. -/
theorem witness_StepKeepsInvariant :
    (Inv State.reset ∧ nextIs (step State.reset) (fun _ => true) = true) ∧
    (Inv (flying 15#4) ∧ (flying 15#4).phase ≠ .idle ∧ nextIs (step (flying 15#4)) (fun t => t.phase == .flush) = true) ∧
    (Inv flushing ∧ flushing.phase ≠ .idle ∧ nextIs (step flushing) (fun t => t.flushes == 1) = true) :=
  ⟨⟨inv_reset, by decide⟩, ⟨inv_flying 15#4, by decide, by decide⟩, ⟨inv_flushing, by decide, by decide⟩⟩

/-- StepKeepsAccounting: a step that completes the first command. -/
theorem witness_StepKeepsAccounting :
    Inv flushing ∧ NoReset flushing ∧ AccountedBy [] flushing ∧
    nextIs (step flushing) (fun t => t.flushes == 1) = true :=
  ⟨inv_flushing, ⟨rfl, nofun⟩, ⟨by decide, rfl⟩, by decide⟩

/-- FinishedRunIsWholeFrames: after the COMPLETE of V1, with nothing left to do, and with actions left that send nothing. -/
theorem witness_FinishedRunIsWholeFrames :
    AccountedBy [v1] (edge flushing) ∧ Finished (edge flushing) ∧ NoReset (edge flushing) ∧
    Finished { edge flushing with agenda := [.wait 10, .client (.poll 0#_), .client (.flashBlocking 0x04#8 1 1 0)] } :=
  ⟨⟨by decide, by decide⟩, ⟨by decide, by decide, by decide, nofun⟩, ⟨by decide, nofun⟩,
    ⟨by decide, by decide, by decide, nofun⟩⟩

/-- SinkRecordOnlyGrows: a step that appends. -/
theorem witness_SinkRecordOnlyGrows :
    nextIs (step (flying 0#4)) (fun t => t.sinkLog == [(0xEF#8, false)]) = true := by decide

/-- StreamingVariantIsTheSameMachine: at rest, and in SEND after the first summed byte (0x01 at offset 6). -/
theorem witness_StreamingVariantIsTheSameMachine :
    StreamRel State.reset { State.reset with ck := 0x1234#16 } ∧
    StreamRel (flying 7#4) { flying 7#4 with ck := 0x0001#16 } :=
  ⟨⟨rfl, nofun⟩, rfl, fun _ => ⟨by decide, by decide⟩⟩

/-- The scheduler at time 0, active in the given phase, with the duration of that phase `ms`: time 0 has every width. -/
def blinkingAt0 (ph : BlinkPhase) (ms : Nat) : BlinkState :=
  { active := true, colour := 0x04#8, onMs := ms, offMs := ms, phase := ph, phaseStart := 0#_ }

/-- The poll statements: between calls, in each phase, at the end of the duration and one millisecond before it. -/
theorem witness_BlinkPollTogglesWhenDue (ph : BlinkPhase) :
    busy { State.reset with agenda := [.client (.poll 0#_)], blink := blinkingAt0 ph 0 } = false ∧
    (blinkingAt0 ph 0).active = true ∧ (blinkingAt0 ph 0).phaseStart ≤ 0#_ ∧ (blinkingAt0 ph 0).phase = ph ∧
    (blinkingAt0 ph 0).phaseStart.toNat + (blinkingAt0 ph 0).onMs ≤ (0#_ : Timestamp).toNat ∧
    (blinkingAt0 ph 0).phaseStart.toNat + (blinkingAt0 ph 0).offMs ≤ (0#_ : Timestamp).toNat ∧
    (0#_ : Timestamp).toNat < (blinkingAt0 ph 1).phaseStart.toNat + (blinkingAt0 ph 1).onMs ∧
    (0#_ : Timestamp).toNat < (blinkingAt0 ph 1).phaseStart.toNat + (blinkingAt0 ph 1).offMs ∧
    State.reset.blink.active = false := by
  simp [busy, State.reset, blinkingAt0, blinkAtConstruction]

/-- BlinkPollNeverBursts. -/
theorem witness_BlinkPollNeverBursts : 0 < (blinkingAt0 .on 1).onMs ∧ 0 < (blinkingAt0 .on 1).offMs := by decide

/-- The other client statements, whose hypotheses are one action at the head of the agenda and a framer not busy. -/
theorem witness_client_between_calls (op : ClientOp) :
    busy { State.reset with agenda := [.client op] } = false ∧
    ({ State.reset with agenda := [.client op] } : State).agenda = .client op :: [] := ⟨rfl, rfl⟩

/-- BlinkStateChangesByItsOperationsOnly: a step that changes BlinkState. -/
theorem witness_BlinkStateChangesByItsOperationsOnly :
    ∃ t, step { State.reset with agenda := [.client (.start 0x04#8 100 50 0#_)] } = .next t ∧
      t.blink ≠ State.reset.blink :=
  ⟨_, rfl, by simp [clientEffect, blinkStart, State.reset, blinkAtConstruction]⟩

end Sys2Proof.Tests
end

/-! ### The state: what the frame space holds, what a step keeps, how far a step goes -/

namespace Sys2Proof

/-! #### The checksum and the frame of a command -/

/-- The constant addends of R71 are CKBASE (R6). -/
theorem checksum_eq (c : Command) :
    checksum c = Config.ckBase + zext16 c.mode + zext16 c.startColour + zext16 c.endColour + zext16 c.cycles := rfl

/-- CKBASE and four bytes add up to less than 2^11 (R73). -/
theorem checksum_lt (c : Command) : (checksum c).toNat < 2 ^ 11 := by
  have hm := c.mode.isLt
  have hb := c.startColour.isLt
  have he := c.endColour.isLt
  have hc := c.cycles.isLt
  simp [checksum, zext16] at *
  omega

theorem checksum_top (c : Command) : (checksum c).extractLsb' 11 5 = 0#5 := by
  apply BitVec.eq_of_toNat_eq
  have hdiv : (checksum c).toNat / 2 ^ 11 = 0 := Nat.div_eq_of_lt (checksum_lt c)
  rw [BitVec.extractLsb'_toNat, Nat.shiftRight_eq_div_pow, hdiv]
  rfl

/-- Every frame is recognised, as the table's row for its operands (R63). -/
theorem decode_frameOf (c : Command) : decode (frameOf c) = .ok (Instr.ofCommand c) := by
  have hfixed : decode (frameOf c) =
      decodeOperands c.mode c.startColour c.endColour c.cycles (hiByte (checksum c)) (loByte (checksum c)) := rfl
  rw [hfixed, decodeOperands, joinBytes_hiByte_loByte, if_pos (checksum_eq c)]

/-- One pair more of a frame: the byte at the offset, marked when it is the last (R36). -/
theorem framePairs_take_succ (c : Command) (k : Nat) (h : k < 16) :
    (framePairs c).take (k + 1) =
      (framePairs c).take k ++ [((frameOf c)[k]'(by simpa using h), k + 1 == 16)] := by
  rw [List.take_succ_eq_append_getElem (by simpa using h)]
  simp only [framePairs, markLast_getElem _ k (show k < (frameOf c).length from h), frameOf_length]

namespace Machine

/-! #### The frame space -/

theorem frameSpace_eq (s : State) :
    frameSpace s = fixedBytes ++ [s.x0, s.x1, s.x2, s.x3, hiByte s.ck, loByte s.ck] := rfl

/-- Offsets 0 to 9 are hardwired (R17, R51). -/
theorem frameSpace_take_ten (s : State) : (frameSpace s).take 10 = fixedBytes := rfl

/-- With the operands' checksum in CK, the frame space is their frame (R18). -/
theorem frameSpace_of_checksum {s : State} (h : s.ck = checksum s.command) : frameSpace s = frameOf s.command := by
  rw [frameSpace_eq, h]
  rfl

theorem frameByte_of_checksum {s : State} (h : s.ck = checksum s.command) (k : Offset) :
    frameByte s k = (frameOf s.command)[k.toNat]'(by simpa using k.isLt) := by
  have hk := frameSpace_getElem s k.toNat k.isLt
  rw [BitVec.ofNat_toNat, BitVec.setWidth_eq] at hk
  rw [← hk]
  simp only [frameSpace_of_checksum h]

@[simp] theorem stepAccept_command (c : Command) (s : State) : (stepAccept c s).command = c := rfl

@[simp] theorem stepEmit_command (s : State) : (stepEmit s).command = s.command := by simp [State.command]

/-- CK after an ACCEPT is the checksum of the latched operands (R87). -/
theorem stepAccept_checksum (c : Command) (s : State) : (stepAccept c s).ck = checksum (stepAccept c s).command := rfl

/-! #### The outputs -/

/-- The outputs while no command is in flight (R22). -/
theorem outputs_idle {s : State} (h : s.phase = .idle) :
    outputs s =
      { cmdReady := true, txValid := false, txData := none, txLast := false, flushReq := false, busy := false } := by
  simp [outputs, busy, h]

/-! #### What every step keeps -/

/-- `P` does not look at the inputs, the host's agenda or BlinkState: it speaks of the framer and the sink's record. -/
def OfFramerAndSink (P : State → Prop) : Prop :=
  ∀ (u : State) (pins : Pins) (schedule : List Pins) (agenda : List HostAction) (blink : BlinkState),
    P u → P { u with pins := pins, schedule := schedule, agenda := agenda, blink := blink }

/-- To see that every answer of `step s` meets `P`, look at `s`, at one framer step from `s`, and at one framer step of a
busy framer: a call is a run of such steps (R85, R86). -/
theorem step_induct {P : State → Prop} {s t : State} (hP : OfFramerAndSink P) (hs : P s)
    (hfirst : ∀ p agenda, P (takeStep p { s with agenda := agenda }))
    (hbusy : ∀ p u, u.phase ≠ .idle → P u → P (takeStep p u)) (h : step s = .next t) : P t := by
  have hnext : ∀ u, P u → P (nextPins u) := fun u hu => by
    rw [nextPins_eq]
    exact hP u _ _ u.agenda u.blink hu
  have hedge : ∀ agenda, P (edge { s with agenda := agenda }) := fun agenda => hnext _ (hfirst _ agenda)
  rcases step_cases h with ⟨rest, -, rfl⟩ | ⟨frame, rest, i, -, -, rfl⟩ | ⟨op, rest, -, -, -, rfl⟩
  · exact hedge rest
  · by_cases hw : s.pins.rst = true ∨ s.phase ≠ .idle
    · rw [issue_waits (s := { s with agenda := rest }) hw]
      exact hedge _
    · obtain ⟨hr, hp⟩ : s.pins.rst = false ∧ s.phase = .idle := by simpa using hw
      rw [issue_consumed (s := { s with agenda := rest }) hr hp]
      exact untilIdle_induct (fun u hu hPu => hnext _ (hbusy _ u hu hPu)) _ _ (hnext _ (hfirst _ rest))
  · exact hP s s.pins s.schedule _ _ hs

/-! #### The invariant -/

theorem inv_ofFramerAndSink : OfFramerAndSink Inv := fun _ _ _ _ _ ⟨hidle, hflush, hsum, htop, hlog⟩ =>
  ⟨hidle, hflush, hsum, htop, hlog⟩

theorem inv_of_idle {s : State} (hp : s.phase = .idle) (hi : s.idx = 0#4) : Inv s where
  idle_idx _ := hi
  flush_idx _ := hi
  ck_sum hb := absurd hp hb
  ck_top hb := absurd hp hb
  log_tail := by simp [State.inFlight, hp]

/-- While a command is in flight, R24(c) and (d) say that CK is the checksum of its operands. -/
theorem inv_of_checksum {s : State} (hb : s.phase ≠ .idle) (hflush : s.phase = .flush → s.idx = 0#4)
    (hck : s.ck = checksum s.command) (hlog : s.inFlight <:+ s.sinkLog) : Inv s where
  idle_idx hp := absurd hp hb
  flush_idx := hflush
  ck_sum _ := by rw [hck, checksum_eq]; rfl
  ck_top _ := by rw [hck, checksum_top]
  log_tail := hlog

theorem Inv.ck_eq_checksum {s : State} (h : Inv s) (hb : s.phase ≠ .idle) : s.ck = checksum s.command :=
  (h.ck_sum hb).trans (checksum_eq s.command).symm

theorem inv_stepAccept (c : Command) (s : State) : Inv (stepAccept c s) :=
  inv_of_checksum (by simp) (by simp) (stepAccept_checksum c s) (by simp [State.inFlight])

/-- An EMIT stays in SEND or, after offset 15, moves to FLUSH with IDX back at 0 (R89). -/
theorem stepEmit_phase {s : State} (hp : s.phase = .send) :
    (stepEmit s).phase = .send ∨ ((stepEmit s).phase = .flush ∧ (stepEmit s).idx = 0#4) := by
  rcases offset_lt_or_last s.idx with hi | hi
  · simp [stepEmit_of_lt hi, hp]
  · simp [stepEmit_of_last hi]

theorem offset_succ_toNat {k : Offset} (h : k < 15#4) : (k + 1#4).toNat = k.toNat + 1 :=
  BitVec.toNat_add_of_lt (by rw [BitVec.lt_def] at h; simp at h ⊢; omega)

/-- An EMIT puts one pair more of the frame in flight, the last one with the move to FLUSH (R89). -/
theorem inFlight_stepEmit {s : State} (hp : s.phase = .send) :
    (stepEmit s).inFlight = (framePairs s.command).take (s.idx.toNat + 1) := by
  rcases offset_lt_or_last s.idx with hi | hi
  · simp [stepEmit_of_lt hi, State.inFlight, hp, offset_succ_toNat hi, State.command]
  · simp [stepEmit_of_last hi, State.inFlight, hi, State.command]

theorem inv_stepEmit {s : State} (h : Inv s) (hp : s.phase = .send) : Inv (stepEmit s) := by
  have hck : s.ck = checksum s.command := h.ck_eq_checksum (by simp [hp])
  have hlast : (s.idx == 15#4) = (s.idx.toNat + 1 == 16) := by
    rw [Bool.eq_iff_iff, beq_iff_eq, beq_iff_eq, ← BitVec.toNat_inj]
    simp
  refine inv_of_checksum ?_ ?_ (by simpa using hck) ?_
  · rcases stepEmit_phase hp with hsend | ⟨hflush, -⟩
    · simp [hsend]
    · simp [hflush]
  · intro hf
    rcases stepEmit_phase hp with hsend | ⟨-, hi⟩
    · simp [hsend] at hf
    · exact hi
  · obtain ⟨before, hlog⟩ := h.log_tail
    refine ⟨before, ?_⟩
    rw [inFlight_stepEmit hp, framePairs_take_succ _ _ s.idx.isLt, stepEmit_sinkLog, ← hlog,
      frameByte_of_checksum hck, hlast]
    simp [State.inFlight, hp]

/-- Each of the six steps keeps the invariant. -/
theorem inv_takeStep (p : Pins) {s : State} (h : Inv s) : Inv (takeStep p s) := by
  rcases takeStep_cases p s with ⟨-, e⟩ | ⟨-, -, -, -, e⟩ | ⟨-, -, -, -, e⟩ | ⟨-, hp, -, e⟩ | ⟨-, hp, -, e⟩ |
    ⟨-, -, e⟩ <;> rw [e]
  · exact inv_of_idle (stepReset_phase s) (stepReset_idx s)
  · exact inv_stepAccept p.command s
  · exact h
  · exact inv_stepEmit h hp
  · exact inv_of_idle (stepComplete_phase s) (h.flush_idx hp)
  · exact h

/-! #### How far one step takes the sink's record -/

/-- The pairs of the command in flight that the sink has not taken yet. -/
def pairsLeft (s : State) : Nat :=
  match s.phase with
  | .idle => 0
  | .send => 16 - s.idx.toNat
  | .flush => 0

/-- The flush of the command in flight that is not counted yet. -/
def flushLeft (s : State) : Nat := (busy s).toNat

/-- From `s` to `u` SINK_LOG and FLUSHES only grow, and what they have grown by and the command in flight in `u` will
still add come to at most 16 pairs and one flush (R82). -/
def WithinOneFrame (s u : State) : Prop :=
  ∃ sent, u.sinkLog = s.sinkLog ++ sent ∧ sent.length + pairsLeft u ≤ 16 ∧
    s.flushes ≤ u.flushes ∧ u.flushes + flushLeft u ≤ s.flushes + 1

theorem withinOneFrame_ofFramerAndSink (s : State) : OfFramerAndSink (WithinOneFrame s) := fun _ _ _ _ _ h => h

/-- Any command in flight fits, as long as the record has not grown. -/
theorem withinOneFrame_of_same_record {s u : State} (hlog : u.sinkLog = s.sinkLog) (hfl : u.flushes = s.flushes) :
    WithinOneFrame s u := by
  refine ⟨[], by simp [hlog], ?_, by omega, ?_⟩
  · unfold pairsLeft
    split <;> simp
  · have : flushLeft u ≤ 1 := Bool.toNat_le _
    omega

/-- EMIT pays for its pair (R89). -/
theorem pairsLeft_stepEmit {s : State} (hp : s.phase = .send) : pairsLeft (stepEmit s) + 1 = pairsLeft s := by
  rcases offset_lt_or_last s.idx with hi | hi
  · have hk := s.idx.isLt
    have hsucc := offset_succ_toNat hi
    simp [stepEmit_of_lt hi, pairsLeft, hp, hsucc]
    omega
  · simp [stepEmit_of_last hi, pairsLeft, hp, hi]

theorem busy_stepEmit {s : State} (hp : s.phase = .send) : busy (stepEmit s) = true := by
  rcases stepEmit_phase hp with hsend | ⟨hflush, -⟩
  · simp [busy, hsend]
  · simp [busy, hflush]

theorem withinOneFrame_stepEmit {s u : State} (h : WithinOneFrame s u) (hp : u.phase = .send) :
    WithinOneFrame s (stepEmit u) := by
  obtain ⟨sent, hlog, hpairs, hle, hfl⟩ := h
  have hpay := pairsLeft_stepEmit hp
  refine ⟨sent ++ [(frameByte u u.idx, u.idx == 15#4)], by simp [hlog], ?_, by simpa using hle, ?_⟩
  · simp
    omega
  · simpa [flushLeft, busy_stepEmit hp, show busy u = true by simp [busy, hp]] using hfl

theorem withinOneFrame_stepComplete {s u : State} (h : WithinOneFrame s u) (hp : u.phase = .flush) :
    WithinOneFrame s (stepComplete u) := by
  obtain ⟨sent, hlog, hpairs, hle, hfl⟩ := h
  refine ⟨sent, by simpa using hlog, ?_, by simp; omega, ?_⟩
  · simp [pairsLeft, hp] at *
    omega
  · have hcount : flushLeft u = 1 := by simp [flushLeft, busy, hp]
    simp [flushLeft, busy]
    omega

/-- A reset gives up what was left to add (R92). -/
theorem withinOneFrame_stepReset {s u : State} (h : WithinOneFrame s u) : WithinOneFrame s (stepReset u) := by
  obtain ⟨sent, hlog, hpairs, hle, hfl⟩ := h
  refine ⟨sent, by simpa using hlog, ?_, by simpa using hle, ?_⟩
  · simp [pairsLeft]
    omega
  · simp [flushLeft, busy]
    omega

/-- A busy framer adds what its command in flight had left to add. -/
theorem withinOneFrame_takeStep_busy {s : State} (p : Pins) (u : State) (hb : u.phase ≠ .idle)
    (h : WithinOneFrame s u) : WithinOneFrame s (takeStep p u) := by
  rcases takeStep_cases p u with ⟨-, e⟩ | ⟨-, hi, -⟩ | ⟨-, hi, -⟩ | ⟨-, hp, -, e⟩ | ⟨-, hp, -, e⟩ | ⟨-, -, e⟩
  · exact e ▸ withinOneFrame_stepReset h
  · exact absurd hi hb
  · exact absurd hi hb
  · exact e ▸ withinOneFrame_stepEmit h hp
  · exact e ▸ withinOneFrame_stepComplete h hp
  · rwa [e]

/-- With no command in flight a framer step leaves the record as it is. -/
theorem takeStep_idle_record (p : Pins) {s : State} (hp : s.phase = .idle) :
    (takeStep p s).sinkLog = s.sinkLog ∧ (takeStep p s).flushes = s.flushes := by
  rcases takeStep_cases p s with ⟨-, e⟩ | ⟨-, -, -, -, e⟩ | ⟨-, -, -, -, e⟩ | ⟨-, hs, -⟩ | ⟨-, hf, -⟩ | ⟨-, -, e⟩
  · simp [e]
  · simp [e]
  · simp [e]
  · simp [hp] at hs
  · simp [hp] at hf
  · simp [e]

theorem withinOneFrame_takeStep (p : Pins) (s : State) : WithinOneFrame s (takeStep p s) := by
  by_cases hp : s.phase = .idle
  · obtain ⟨hlog, hfl⟩ := takeStep_idle_record p hp
    exact withinOneFrame_of_same_record hlog hfl
  · exact withinOneFrame_takeStep_busy p s hp (withinOneFrame_of_same_record rfl rfl)

/-! #### The statements on the state -/

/-- Settles O38: the six steps keep the invariant, and a call is a run of them. -/
theorem stepKeepsInvariant : Obligations.StepKeepsInvariant := fun _ _ hs =>
  step_induct inv_ofFramerAndSink hs (fun p agenda => inv_takeStep p (inv_ofFramerAndSink _ _ _ agenda _ hs))
    fun p _ _ hu => inv_takeStep p hu

/-- Settles O43: a step begins at most one command, and what it adds is what that command, or the one already in flight,
had left to add. -/
theorem sinkRecordOnlyGrows : Obligations.SinkRecordOnlyGrows := fun s t h => by
  have hone : WithinOneFrame s t :=
    step_induct (withinOneFrame_ofFramerAndSink s) (withinOneFrame_of_same_record rfl rfl)
      (fun p _ => withinOneFrame_takeStep p _) withinOneFrame_takeStep_busy h
  obtain ⟨sent, hlog, hpairs, hle, hfl⟩ := hone
  exact ⟨sent, hlog, by omega, hle, by omega⟩

/-- Settles O1: the start state and every result of RESET are idle with IDX 0, and the outputs follow PHASE. -/
theorem resetLeavesFramerIdle : Obligations.ResetLeavesFramerIdle := by
  intro s hs
  have hidle : s.phase = .idle ∧ s.idx = 0#4 := by
    rcases hs with rfl | ⟨r, rfl⟩
    · exact ⟨rfl, rfl⟩
    · exact ⟨stepReset_phase r, stepReset_idx r⟩
  obtain ⟨hp, hi⟩ := hidle
  exact ⟨hp, hi, by simp [busy, hp], outputs_idle hp, frameSpace_take_ten s⟩

/-- Settles O10, phase by phase. -/
theorem outputsFollowPhase : Obligations.OutputsFollowPhase := by
  intro s
  cases hp : s.phase
  case idle => simp [outputs_idle hp]
  case send => simp [outputs, busy, hp]
  case flush => simp [outputs, busy, hp]

/-- Settles O15: ACCEPT stores the checksum of the operands it latches. -/
theorem frameSpaceHoldsTheAcceptedFrame : Obligations.FrameSpaceHoldsTheAcceptedFrame :=
  ⟨fun c s => frameSpace_of_checksum (stepAccept_checksum c s), frameSpace_take_ten⟩

/-- Settles O37: nothing is in flight at the start of a run. -/
theorem invariantAtReset : Obligations.InvariantAtReset := inv_of_idle rfl rfl

/-- Settles O39: R24(c) makes CK the checksum of the operand registers. -/
theorem frameInFlightIsWellFormed : Obligations.FrameInFlightIsWellFormed := by
  intro s h hb
  have hframe : frameSpace s = frameOf s.command := frameSpace_of_checksum (h.ck_eq_checksum hb)
  exact ⟨hframe, by rw [hframe, decode_frameOf]⟩

end Machine

end Sys2Proof

/-! ### The frame space and the sink's record over a command (20_memory.md) -/

namespace Sys2Proof

/-- The two bytes of a 16-bit value, the first the more significant (R8, R30). -/
theorem joinBytes_toNat (hi lo : Byte) : (joinBytes hi lo).toNat = 256 * hi.toNat + lo.toNat := by
  have hhi := hi.isLt
  have hshift : (hi.setWidth 16 <<< 8).toNat = hi.toNat <<< 8 := by
    simp [Nat.shiftLeft_eq]
    omega
  rw [joinBytes, BitVec.toNat_or, hshift, BitVec.toNat_setWidth_of_le (by decide),
    ← Nat.shiftLeft_add_eq_or_of_lt lo.isLt, Nat.shiftLeft_eq, Nat.mul_comm]

namespace Machine

/-! #### Reads of the frame space -/

/-- A read inside the 16 offsets is the big-endian value of its bytes (R44). -/
theorem memRead_of_le {s : State} {a n : Nat} (h : a + n ≤ 16) :
    memRead s a n = some ((((frameSpace s).drop a).take n).foldl (fun v b => 256 * v + b.toNat) 0) := if_pos h

/-- A read inside offsets 0 to 9 sees the constants only (R17, R51). -/
theorem memRead_fixed (s : State) {a n : Nat} (h : a + n ≤ 10) :
    memRead s a n = some (((fixedBytes.drop a).take n).foldl (fun v b => 256 * v + b.toNat) 0) := by
  have hlen : fixedBytes.length = 10 := rfl
  rw [memRead_of_le (by omega), frameSpace_eq, List.drop_append_of_le_length (by omega),
    List.take_append_of_le_length (by rw [List.length_drop]; omega)]

theorem memRead_one (s : State) (k : Offset) : memRead s k.toNat 1 = some (frameByte s k).toNat := by
  have hk := k.isLt
  have hbyte := frameSpace_getElem s k.toNat hk
  rw [BitVec.ofNat_toNat, BitVec.setWidth_eq] at hbyte
  rw [memRead_of_le (by omega), List.drop_eq_getElem_cons (by simpa using hk), hbyte]
  simp

/-- Offsets 14 and 15 hold CK, its high byte first (R18). -/
theorem memRead_checksum (s : State) : memRead s 14 2 = some s.ck.toNat := by
  have hbytes : memRead s 14 2 = some (256 * (256 * 0 + (hiByte s.ck).toNat) + (loByte s.ck).toNat) := rfl
  rw [hbytes, Nat.mul_zero, Nat.zero_add, ← joinBytes_toNat, joinBytes_hiByte_loByte]

/-- Settles O16: the fixed fields are the constants' bytes, and the other two reads are CK and the byte at IDX. -/
theorem frameSpaceIsBigEndian : Obligations.FrameSpaceIsBigEndian := fun s =>
  ⟨memRead_fixed s (by decide), memRead_fixed s (by decide), memRead_fixed s (by decide), memRead_checksum s,
    memRead_one s s.idx⟩

/-! #### The inputs of a run -/

theorem noReset_iff {s : State} : NoReset s ↔ ∀ p ∈ s.pins :: s.schedule, p.rst = false := by
  simp [NoReset]

/-- What is left of the inputs has no reset when the whole has none. -/
theorem NoReset.of_suffix {s u : State} (h : NoReset s) (hin : u.pins :: u.schedule <:+ s.pins :: s.schedule) :
    NoReset u :=
  noReset_iff.mpr fun p hp => noReset_iff.mp h p (hin.subset hp)

/-- A framer step leaves the inputs alone, so an edge passes them from the front whatever the levels it stepped with. -/
theorem nextPins_takeStep_inputs_suffix (p : Pins) (s : State) :
    (nextPins (takeStep p s)).pins :: (nextPins (takeStep p s)).schedule <:+ s.pins :: s.schedule := by
  simpa using nextPins_inputs_suffix (takeStep p s)

/-- To see that without resets every answer of `step` meets `P`, look at one framer step without a reset (R85, R86). -/
theorem step_induct_noReset {P : State → Prop} {s t : State} (hP : OfFramerAndSink P) (hs : P s) (hn : NoReset s)
    (htake : ∀ p u, p.rst = false → P u → P (takeStep p u)) (h : step s = .next t) : NoReset t ∧ P t := by
  have hnext : ∀ p u, p.rst = false → NoReset u ∧ P u →
      NoReset (nextPins (takeStep p u)) ∧ P (nextPins (takeStep p u)) := fun p u hr ⟨hnu, hPu⟩ =>
    ⟨hnu.of_suffix (nextPins_takeStep_inputs_suffix p u), by
      rw [nextPins_eq]
      exact hP _ _ _ _ _ (htake p u hr hPu)⟩
  have hedge : ∀ u, NoReset u ∧ P u → NoReset (edge u) ∧ P (edge u) := fun u hu => hnext u.pins u hu.1.1 hu
  have hagenda : ∀ agenda, NoReset { s with agenda := agenda } ∧ P { s with agenda := agenda } :=
    fun agenda => ⟨hn, hP s _ _ agenda _ hs⟩
  rcases step_cases h with ⟨rest, -, rfl⟩ | ⟨frame, rest, i, -, -, rfl⟩ | ⟨op, rest, -, -, -, rfl⟩
  · exact hedge _ (hagenda rest)
  · by_cases hp : s.phase = .idle
    · rw [issue_consumed (s := { s with agenda := rest }) hn.1 hp]
      exact untilIdle_induct (fun u _ hu => hedge u hu) _ _ (hnext _ _ hn.1 (hagenda rest))
    · rw [issue_waits (s := { s with agenda := rest }) (.inr hp)]
      exact hedge _ (hagenda _)
  · exact ⟨hn, hP s _ _ _ _ hs⟩

/-! #### The accounting of SINK_LOG and FLUSHES -/

theorem inFlight_idle {s : State} (hp : s.phase = .idle) : s.inFlight = [] := by simp [State.inFlight, hp]

theorem inFlight_send {s : State} (hp : s.phase = .send) :
    s.inFlight = (framePairs s.command).take s.idx.toNat := by simp [State.inFlight, hp]

theorem inFlight_flush {s : State} (hp : s.phase = .flush) : s.inFlight = framePairs s.command := by
  simp [State.inFlight, hp]

@[simp] theorem inFlight_stepAccept (c : Command) (s : State) : (stepAccept c s).inFlight = [] :=
  inFlight_send (stepAccept_phase c s)

/-- The pair that an EMIT hands over is the next one of the frame in flight (R89, R96): by the invariant both are the
last pair of SINK_LOG. -/
theorem inFlight_stepEmit_eq_append {s : State} (h : Inv s) (hp : s.phase = .send) :
    (stepEmit s).inFlight = s.inFlight ++ [(frameByte s s.idx, s.idx == 15#4)] := by
  obtain ⟨before, hlog⟩ := h.log_tail
  obtain ⟨before', hlog'⟩ := (inv_stepEmit h hp).log_tail
  rw [stepEmit_sinkLog, ← hlog, List.append_assoc] at hlog'
  have hk := s.idx.isLt
  have hlen : (stepEmit s).inFlight.length = (s.inFlight ++ [(frameByte s s.idx, s.idx == 15#4)]).length := by
    simp [inFlight_stepEmit hp, inFlight_send hp]
    omega
  exact (List.append_inj' hlog' hlen).2

/-- What stands before the frame in flight is not touched by an EMIT. -/
theorem sinkLog_stepEmit_of_inFlight {s : State} {before : List (Byte × Bool)} (h : Inv s) (hp : s.phase = .send)
    (hlog : s.sinkLog = before ++ s.inFlight) : (stepEmit s).sinkLog = before ++ (stepEmit s).inFlight := by
  rw [stepEmit_sinkLog, hlog, inFlight_stepEmit_eq_append h hp, List.append_assoc]

/-- COMPLETE turns the frame in flight into one more completed command (R90). -/
theorem accountedBy_stepComplete {done : List Command} {s : State} (hp : s.phase = .flush) (h : AccountedBy done s) :
    AccountedBy (done ++ [s.command]) (stepComplete s) := by
  obtain ⟨hlog, hfl⟩ := h
  exact ⟨by simp [hlog, inFlight_flush hp, inFlight_idle (stepComplete_phase s)], by simp [hfl]⟩

/-- Without a reset a framer step keeps the accounting; only a COMPLETE adds to the completed commands. -/
theorem accountedBy_takeStep {done : List Command} {p : Pins} {s : State} (hr : p.rst = false) (hi : Inv s)
    (h : AccountedBy done s) : ∃ more, AccountedBy (done ++ more) (takeStep p s) := by
  have hsame : ∃ more, AccountedBy (done ++ more) s := ⟨[], by simpa using h⟩
  rcases takeStep_cases p s with ⟨hrst, -⟩ | ⟨-, hp, -, -, e⟩ | ⟨-, -, -, -, e⟩ | ⟨-, hp, -, e⟩ | ⟨-, hp, -, e⟩ |
    ⟨-, -, e⟩
  · simp [hr] at hrst
  · obtain ⟨hlog, hfl⟩ := h
    exact e ▸ ⟨[], by simp [hlog, inFlight_idle hp], by simp [hfl]⟩
  · rwa [e]
  · obtain ⟨hlog, hfl⟩ := h
    exact e ▸ ⟨[], by simpa using sinkLog_stepEmit_of_inFlight hi hp hlog, by simp [hfl]⟩
  · exact e ▸ ⟨[s.command], accountedBy_stepComplete hp h⟩
  · rwa [e]

/-- The invariant, and the accounting with some commands completed after those of `done`. -/
def AccountedBeyond (done : List Command) (s : State) : Prop := Inv s ∧ ∃ more, AccountedBy (done ++ more) s

theorem accountedBeyond_ofFramerAndSink (done : List Command) : OfFramerAndSink (AccountedBeyond done) :=
  fun u pins schedule agenda blink ⟨hi, hmore⟩ => ⟨inv_ofFramerAndSink u pins schedule agenda blink hi, hmore⟩

theorem accountedBeyond_takeStep {done : List Command} (p : Pins) (s : State) (hr : p.rst = false)
    (h : AccountedBeyond done s) : AccountedBeyond done (takeStep p s) := by
  obtain ⟨hi, more, hmore⟩ := h
  obtain ⟨later, hlater⟩ := accountedBy_takeStep hr hi hmore
  exact ⟨inv_takeStep p hi, more ++ later, by rwa [← List.append_assoc]⟩

/-- Settles O41: every framer step without a reset keeps the accounting, and FLUSHES, which counts the completed
commands, grows by at most one in a step. -/
theorem stepKeepsAccounting : Obligations.StepKeepsAccounting := by
  intro s t done hi hn hacc h
  have hbeyond : NoReset t ∧ AccountedBeyond done t :=
    step_induct_noReset (accountedBeyond_ofFramerAndSink done) ⟨hi, [], by simpa using hacc⟩ hn
      accountedBeyond_takeStep h
  obtain ⟨hnt, -, more, hmore⟩ := hbeyond
  obtain ⟨-, -, -, -, hone⟩ := sinkRecordOnlyGrows s t h
  have hlen : t.flushes = done.length + more.length := by simpa using hmore.2
  exact ⟨hnt, more, by rw [hlen, hacc.2] at hone; omega, hmore⟩

/-! #### How far a consumed call has come -/

/-- The operand registers and CK hold the command and its checksum, and no free value has been drawn since `s`. -/
structure Latched (c : Command) (s u : State) : Prop where
  command : u.command = c
  checksum : u.ck = checksum c
  free : u.free = s.free

/-- How far the call of `c` consumed in `s` has come in `u`: in flight, returned, or given up at a reset. -/
inductive CallProgress (c : Command) (s u : State) : Prop where
  | inFlight (hb : u.phase ≠ .idle) (hi : Inv u) (hheld : Latched c s u)
      (hlog : u.sinkLog = s.sinkLog ++ u.inFlight) (hfl : u.flushes = s.flushes)
  | returned (hp : u.phase = .idle) (hheld : Latched c s u)
      (hlog : u.sinkLog = s.sinkLog ++ framePairs c) (hfl : u.flushes = s.flushes + 1)
  | cut (hreset : ¬ NoReset s) (hp : u.phase = .idle) (hfl : u.flushes = s.flushes)
      (hlog : ∃ j ≤ 16, u.sinkLog = s.sinkLog ++ (framePairs c).take j)

theorem callProgress_ofFramerAndSink (c : Command) (s : State) : OfFramerAndSink (CallProgress c s) := by
  intro u pins schedule agenda blink h
  cases h with
  | inFlight hb hi hheld hlog hfl =>
    exact .inFlight hb (inv_ofFramerAndSink u _ _ _ _ hi) ⟨hheld.command, hheld.checksum, hheld.free⟩ hlog hfl
  | returned hp hheld hlog hfl => exact .returned hp ⟨hheld.command, hheld.checksum, hheld.free⟩ hlog hfl
  | cut hreset hp hfl hlog => exact .cut hreset hp hfl hlog

theorem callProgress_stepAccept (c : Command) (s : State) : CallProgress c s (stepAccept c s) :=
  .inFlight (by simp) (inv_stepAccept c s) ⟨rfl, rfl, rfl⟩ (by simp) rfl

theorem inFlight_eq_take (s : State) : ∃ j ≤ 16, s.inFlight = (framePairs s.command).take j := by
  cases hp : s.phase with
  | idle => exact ⟨0, by omega, by simp [inFlight_idle hp]⟩
  | send => exact ⟨s.idx.toNat, s.idx.isLt.le, inFlight_send hp⟩
  | flush => exact ⟨16, le_refl _, by rw [inFlight_flush hp, List.take_of_length_le (by simp)]⟩

/-- Each framer step of a busy framer goes on with the call, returns from it or, at a reset, cuts it (R86). -/
theorem callProgress_takeStep {c : Command} {s u : State} {p : Pins} (hp : u.phase ≠ .idle)
    (hreset : p.rst = true → ¬ NoReset s) (h : CallProgress c s u) : CallProgress c s (takeStep p u) := by
  cases h with
  | returned hidle => exact absurd hidle hp
  | cut _ hidle => exact absurd hidle hp
  | inFlight hb hi hheld hlog hfl =>
    obtain ⟨hcmd, hck, hfree⟩ := hheld
    rcases takeStep_cases p u with ⟨hr, e⟩ | ⟨-, hidle, -⟩ | ⟨-, hidle, -⟩ | ⟨-, hs, -, e⟩ | ⟨-, hf, -, e⟩ | ⟨-, -, e⟩
    · obtain ⟨j, hj, htake⟩ := inFlight_eq_take u
      exact e ▸ .cut (hreset hr) rfl hfl ⟨j, hj, by rw [stepReset_sinkLog, hlog, htake, hcmd]⟩
    · exact absurd hidle hp
    · exact absurd hidle hp
    · have hb' : (stepEmit u).phase ≠ .idle := by simpa [busy] using busy_stepEmit hs
      exact e ▸ .inFlight hb' (inv_stepEmit hi hs) ⟨by simpa using hcmd, by simpa using hck, by simpa using hfree⟩
        (sinkLog_stepEmit_of_inFlight hi hs hlog) (by simpa using hfl)
    · exact e ▸ .returned rfl ⟨hcmd, hck, hfree⟩ (by rw [stepComplete_sinkLog, hlog, inFlight_flush hf, hcmd])
        (by simp [hfl])
    · rw [e]
      exact .inFlight hb hi ⟨hcmd, hck, hfree⟩ hlog hfl

/-- The host's side is as the call found it, and the inputs have passed from the front. -/
structure HostFrame (s u : State) : Prop where
  agenda : u.agenda = s.agenda
  blink : u.blink = s.blink
  inputs : u.pins :: u.schedule <:+ s.pins :: s.schedule

theorem hostFrame_nextPins_takeStep {s u : State} (p : Pins) (h : HostFrame s u) :
    HostFrame s (nextPins (takeStep p u)) where
  agenda := by simpa using h.agenda
  blink := by simpa using h.blink
  inputs := (nextPins_takeStep_inputs_suffix p u).trans h.inputs

/-- A consumed call, wherever its wait ends (R70, R77, R142). -/
theorem callProgress_issue {c : Command} {s : State} (hr : s.pins.rst = false) (hp : s.phase = .idle)
    (hs : s.pins.sinkPresent = true) : CallProgress c s (issue c s) ∧ HostFrame s (issue c s) := by
  have hnext : ∀ u, CallProgress c s u → CallProgress c s (nextPins u) := fun u hu => by
    rw [nextPins_eq]
    exact callProgress_ofFramerAndSink c s u _ _ _ _ hu
  have haccept : takeStep (s.pins.offer c) s = stepAccept c s := takeStep_accept hr hp rfl hs
  rw [issue_consumed hr hp]
  refine untilIdle_induct (P := fun u => CallProgress c s u ∧ HostFrame s u) ?_ _ _ ⟨?_, ?_⟩
  · rintro u hb ⟨hcall, hhost⟩
    have hreset : u.pins.rst = true → ¬ NoReset s := fun hrst hn => by
      have hrst' := (hn.of_suffix hhost.inputs).1
      simp [hrst] at hrst'
    exact ⟨hnext _ (callProgress_takeStep hb hreset hcall), hostFrame_nextPins_takeStep _ hhost⟩
  · exact hnext _ (haccept ▸ callProgress_stepAccept c s)
  · exact hostFrame_nextPins_takeStep _ ⟨rfl, rfl, List.suffix_refl _⟩

/-- Without a reset the registers hold the command to the end. -/
theorem CallProgress.latched {c : Command} {s u : State} (h : CallProgress c s u) (hn : NoReset s) :
    Latched c s u := by
  cases h with
  | inFlight _ _ hheld => exact hheld
  | returned _ hheld => exact hheld
  | cut hreset => exact absurd hn hreset

/-- What SINK_LOG and FLUSHES say of the call, and what they say without a reset (R36, R39, R96, R142). -/
theorem CallProgress.record {c : Command} {s u : State} (h : CallProgress c s u) :
    ∃ j ≤ 16, u.sinkLog = s.sinkLog ++ (framePairs c).take j ∧
      (u.flushes = s.flushes ∨ (u.flushes = s.flushes + 1 ∧ j = 16)) ∧
      (NoReset s →
        (u.phase = .idle → j = 16 ∧ u.flushes = s.flushes + 1) ∧
        (u.phase = .send → j = u.idx.toNat ∧ u.flushes = s.flushes) ∧
        (u.phase = .flush → j = 16 ∧ u.flushes = s.flushes)) := by
  have hwhole : (framePairs c).take 16 = framePairs c := List.take_of_length_le (by simp)
  cases h with
  | inFlight hb hi hheld hlog hfl =>
    cases hp : u.phase with
    | idle => exact absurd hp hb
    | send =>
      rw [inFlight_send hp, hheld.command] at hlog
      exact ⟨u.idx.toNat, u.idx.isLt.le, hlog, .inl hfl, fun _ => ⟨nofun, fun _ => ⟨rfl, hfl⟩, nofun⟩⟩
    | flush =>
      rw [inFlight_flush hp, hheld.command, ← hwhole] at hlog
      exact ⟨16, le_refl _, hlog, .inl hfl, fun _ => ⟨nofun, nofun, fun _ => ⟨rfl, hfl⟩⟩⟩
  | returned hp hheld hlog hfl =>
    rw [← hwhole] at hlog
    exact ⟨16, le_refl _, hlog, .inr ⟨hfl, rfl⟩, fun _ => ⟨fun _ => ⟨rfl, hfl⟩, by simp [hp], by simp [hp]⟩⟩
  | cut hreset hp hfl hlog =>
    obtain ⟨j, hj, hlog⟩ := hlog
    exact ⟨j, hj, hlog, .inl hfl, fun hn => absurd hn hreset⟩

/-- Settles O26: the call is in flight, has returned or was cut, and the pairs it appended follow. -/
theorem setLedFrame : Obligations.SetLedFrame := by
  intro i s t hr hp hs h
  rw [exec_eq, Host.Outcome.next.injEq] at h
  obtain ⟨hcall, hagenda, hblink, hinputs⟩ : CallProgress i.command s t ∧ HostFrame s t :=
    h ▸ callProgress_issue hr hp hs
  refine ⟨?_, hagenda, hblink, hinputs, by rw [frameSpace_take_ten, frameSpace_take_ten], fun hn => ?_⟩
  · exact hcall.record
  · obtain ⟨hcmd, hck, hfree⟩ := hcall.latched hn
    exact ⟨hfree, hcmd, hck⟩

/-! #### A command in flight does not see the other inputs -/

/-- The inputs that a busy framer looks at (R86). -/
def seenWhileBusy (p : Pins) : Bool × Bool × Bool := (p.rst, p.txReady, p.flushDone)

/-- The inputs at the coming edge and at the later ones agree, as far as a busy framer looks at them. -/
def SameSeen (r s : State) : Prop :=
  (r.pins :: r.schedule).map seenWhileBusy = (s.pins :: s.schedule).map seenWhileBusy

/-- `r` differs from `s` in its inputs only. -/
def SameButInputs (r s : State) : Prop := r = { s with pins := r.pins, schedule := r.schedule }

/-- The framer's step neither reads nor changes the inputs held in the state: it is given its levels. -/
theorem takeStep_withInputs (p pins : Pins) (schedule : List Pins) (s : State) :
    takeStep p { s with pins := pins, schedule := schedule } =
      { takeStep p s with pins := pins, schedule := schedule } := by
  unfold takeStep
  cases selectStep p s.phase with
  | emit =>
    rcases offset_lt_or_last s.idx with hi | hi
    · simp only [stepEmit_of_lt hi, stepEmit_of_lt (s := { s with pins := pins, schedule := schedule }) hi]
      rfl
    · simp only [stepEmit_of_last hi, stepEmit_of_last (s := { s with pins := pins, schedule := schedule }) hi]
      rfl
  | _ => rfl

theorem sameButInputs_edge {r s : State} (hb : s.phase ≠ .idle) (h : SameButInputs r s) (hseen : SameSeen r s) :
    SameButInputs (edge r) (edge s) := by
  obtain ⟨⟨hr, ht, hf⟩, -⟩ : (r.pins.rst = s.pins.rst ∧ r.pins.txReady = s.pins.txReady ∧
      r.pins.flushDone = s.pins.flushDone) ∧ r.schedule.map seenWhileBusy = s.schedule.map seenWhileBusy := by
    simpa [SameSeen, seenWhileBusy] using hseen
  have hstep : takeStep r.pins r =
      { takeStep s.pins s with pins := r.pins, schedule := r.schedule } := by
    rw [← takeStep_busy_congr hb hr ht hf, ← takeStep_withInputs, ← h]
  unfold SameButInputs edge
  rw [nextPins_eq (takeStep r.pins r), nextPins_eq (takeStep s.pins s), hstep]

/-- Equally long inputs that agree go on agreeing from edge to edge. -/
theorem sameSeen_edge {r s : State} (h : SameSeen r s) : SameSeen (edge r) (edge s) := by
  unfold SameSeen edge nextPins at *
  simp only [takeStep_schedule]
  cases hr : r.schedule with
  | nil => cases hs : s.schedule <;> simp_all
  | cons q rest => cases hs : s.schedule <;> simp_all

/-- Waiting for the command to complete keeps two states apart in their inputs only (R40, R153). -/
theorem sameButInputs_untilIdle (n : Nat) {r s : State} (h : SameButInputs r s) (hseen : SameSeen r s) :
    SameButInputs (untilIdle n r) (untilIdle n s) := by
  induction n generalizing r s with
  | zero => exact h
  | succ n ih =>
    have hphase : r.phase = s.phase := by rw [h]
    by_cases hp : s.phase = .idle
    · rwa [untilIdle_idle hp, untilIdle_idle (hphase.trans hp)]
    · rw [untilIdle_busy hp, untilIdle_busy (hphase ▸ hp)]
      exact ih (sameButInputs_edge hp h hseen) (sameSeen_edge hseen)

/-- Settles O31: a busy framer looks at `rst`, `tx_ready` and `flush_done` alone. -/
theorem commandInFlightIsIsolated : Obligations.CommandInFlightIsIsolated := fun n _ _ _ h hseen =>
  sameButInputs_untilIdle n h hseen

end Machine

end Sys2Proof

/-! ### The encoding and its recogniser (30_encoding.md) -/

namespace Sys2Proof

/-! #### The recogniser accepts the frames and nothing else -/

theorem joinBytes_eq_iff {hi lo : Byte} {h : Half} : joinBytes hi lo = h ↔ hi = hiByte h ∧ lo = loByte h := by
  constructor
  · rintro rfl
    simp
  · rintro ⟨rfl, rfl⟩
    simp

/-- The operand check passes exactly on the checksum of the operands (R63), and answers the table's row for them. -/
theorem decodeOperands_eq_ok_iff {m s e c k1 k0 : Byte} {i : Instr} :
    decodeOperands m s e c k1 k0 = .ok i ↔
      (k1 = hiByte (checksum ⟨m, s, e, c⟩) ∧ k0 = loByte (checksum ⟨m, s, e, c⟩)) ∧
        Instr.ofCommand ⟨m, s, e, c⟩ = i := by
  rw [← joinBytes_eq_iff, checksum_eq]
  unfold decodeOperands
  split <;> simp [*]

/-- A string that decodes is the frame of a command, and decodes to that command's row. -/
theorem frameOf_of_decode {bs : List Byte} {i : Instr} (h : decode bs = .ok i) :
    ∃ c, bs = frameOf c ∧ Instr.ofCommand c = i := by
  unfold decode at h
  split at h
  case h_2 => simp at h
  case h_1 h1 h0 a3 a2 a1 a0 pid l1 l0 op m s e c k1 k0 =>
    split_ifs at h with hheader haddress hpid hlength hop
    obtain ⟨⟨rfl, rfl⟩, hi⟩ := decodeOperands_eq_ok_iff.mp h
    simp only [ne_eq, not_or, not_not, joinBytes_eq_iff] at hheader haddress hpid hlength hop
    obtain ⟨rfl, rfl⟩ := hheader
    obtain ⟨⟨rfl, rfl⟩, rfl, rfl⟩ := haddress
    obtain rfl := hpid
    obtain ⟨rfl, rfl⟩ := hlength
    obtain rfl := hop
    exact ⟨⟨m, s, e, c⟩, rfl, hi⟩

/-- The strings that decode are the frames, each to the row of its command (R63, R59). -/
theorem decode_eq_ok_iff {bs : List Byte} {i : Instr} :
    decode bs = .ok i ↔ ∃ c, bs = frameOf c ∧ Instr.ofCommand c = i := by
  refine ⟨frameOf_of_decode, ?_⟩
  rintro ⟨c, rfl, rfl⟩
  exact decode_frameOf c

/-! #### The one spelling of an instruction -/

/-- The well-formed instructions are the rows that the decoder chooses (log 8). -/
theorem wellFormed_iff_ofCommand_command (i : Instr) : WellFormed i ↔ Instr.ofCommand i.command = i := by
  cases i with
  | setLed m s e c =>
    by_cases h : m = Config.modeOn <;> simp [WellFormed, Instr.wellFormed, Instr.ofCommand, Instr.command, h]
  | setLedOn s e c => simp [WellFormed, Instr.wellFormed, Instr.ofCommand, Instr.command]

theorem ofCommand_eq_setLedOn_iff (c : Command) :
    (∃ s e n, Instr.ofCommand c = .setLedOn s e n) ↔ c.mode = Config.modeOn := by
  unfold Instr.ofCommand
  split <;> simp [*]

/-- Settles O17: a frame decodes to the row of its operands, which is the well-formed spelling. -/
theorem decodeOfEncode : Obligations.DecodeOfEncode := fun i hi => by
  rw [encode, decode_frameOf, (wellFormed_iff_ofCommand_command i).mp hi]

/-- Settles O18: what decodes is a frame, and it decodes to the one instruction that spells the frame's command. -/
theorem decodeExactlyTheFrames : Obligations.DecodeExactlyTheFrames := by
  intro bs i
  constructor
  · intro h
    obtain ⟨c, rfl, rfl⟩ := decode_eq_ok_iff.mp h
    simp [wellFormed_iff_ofCommand_command, encode]
  · rintro ⟨hi, rfl⟩
    exact decodeOfEncode i hi

/-- Settles O19: the decoder reads the command back from its frame. -/
theorem frameOfInjective : Obligations.FrameOfInjective := by
  intro c d h
  have hrow : Instr.ofCommand c = Instr.ofCommand d := by
    have hdecode := congrArg decode h
    rwa [decode_frameOf, decode_frameOf, Except.ok.injEq] at hdecode
  simpa using congrArg Instr.command hrow

/-! #### The word and its bytes -/

theorem wordBytes_take_succ (w : BitVec 128) {k : Nat} (hk : k < 16) :
    (wordBytes w).take (k + 1) = (wordBytes w).take k ++ [w.extractLsb' (120 - 8 * k) 8] := by
  rw [List.take_succ_eq_append_getElem (by simpa using hk)]
  simp [wordBytes]

theorem bytesWord_append_singleton (bs : List Byte) (b : Byte) :
    bytesWord (bs ++ [b]) = (bytesWord bs <<< 8) ||| b.setWidth 128 := by
  simp [bytesWord]

/-- The first `k` bytes of a word, put together again, are its top `8 * k` bits (R50). -/
theorem bytesWord_wordBytes_take (w : BitVec 128) {k : Nat} (hk : k ≤ 16) :
    bytesWord ((wordBytes w).take k) = w >>> (128 - 8 * k) := by
  induction k with
  | zero =>
    rw [BitVec.ushiftRight_eq_zero (by omega)]
    rfl
  | succ k ih =>
    rw [wordBytes_take_succ w hk, bytesWord_append_singleton, ih (by omega)]
    ext i hi
    by_cases h8 : i < 8
    · have hbit : 128 - 8 * (k + 1) = 120 - 8 * k := by omega
      simp [h8, hbit]
    · have hbit : 128 - 8 * k + (i - 8) = 128 - 8 * (k + 1) + i := by omega
      simp [h8, hbit]

/-- The word is recovered from its 16 bytes (R50). -/
theorem bytesWord_wordBytes (w : BitVec 128) : bytesWord (wordBytes w) = w := by
  have hall : (wordBytes w).take 16 = wordBytes w := rfl
  rw [← hall, bytesWord_wordBytes_take w le_rfl]
  exact BitVec.ushiftRight_zero w

/-- Two words have the same leading bytes exactly when they have the same top bits (R50). -/
theorem wordBytes_take_eq_iff (w v : BitVec 128) {k : Nat} (hk : k ≤ 16) :
    (wordBytes w).take k = (wordBytes v).take k ↔ w >>> (128 - 8 * k) = v >>> (128 - 8 * k) := by
  constructor
  · intro h
    rw [← bytesWord_wordBytes_take w hk, ← bytesWord_wordBytes_take v hk, h]
  · induction k with
    | zero => simp
    | succ k ih =>
      intro h
      have hsplit (u : BitVec 128) : u >>> (128 - 8 * k) = (u >>> (128 - 8 * (k + 1))) >>> 8 := by
        rw [← BitVec.shiftRight_add]
        congr 1
        omega
      have hbyte (u : BitVec 128) : u.extractLsb' (120 - 8 * k) 8 = (u >>> (128 - 8 * (k + 1))).setWidth 8 := by
        have hlow : 128 - 8 * (k + 1) = 120 - 8 * k := by omega
        rw [hlow]
        rfl
      rw [wordBytes_take_succ w hk, wordBytes_take_succ v hk, hbyte, hbyte, h,
        ih (by omega) (by rw [hsplit, hsplit, h])]

/-- A mask of leading ones compares the top bits (R55). -/
theorem and_allOnes_shiftLeft_eq_iff (w v : BitVec 128) (n : Nat) :
    w &&& (BitVec.allOnes 128 <<< n) = v &&& (BitVec.allOnes 128 <<< n) ↔ w >>> n = v >>> n := by
  rw [← BitVec.shiftLeft_ushiftRight, ← BitVec.shiftLeft_ushiftRight]
  constructor
  · intro h
    have hback (u : BitVec 128) : u >>> n = u >>> n <<< n >>> n := by
      ext i hi
      simpa using BitVec.lt_of_getLsbD
    rw [hback w, h, ← hback v]
  · exact fun h => by rw [h]

/-- The mask of `k` leading bytes, with the pattern's own bits under it, compares the leading bytes (R55). -/
theorem and_mask_eq_pattern_iff {mask pattern : BitVec 128} (w : BitVec 128) {k : Nat} (hk : k ≤ 16)
    (hmask : mask = BitVec.allOnes 128 <<< (128 - 8 * k)) (hpattern : pattern &&& mask = pattern) :
    w &&& mask = pattern ↔ (wordBytes w).take k = (wordBytes pattern).take k := by
  rw [wordBytes_take_eq_iff w pattern hk, ← and_allOnes_shiftLeft_eq_iff, ← hmask, hpattern]

/-- The mask of SET_LED compares bytes 0 to 9 with the fixed ones (R55, R51). -/
theorem matches_setLed_iff (w : BitVec 128) :
    w &&& 0xFFFFFFFFFFFFFFFFFFFF000000000000#128 = 0xEF01FFFFFFFF0100073C000000000000#128 ↔
      (wordBytes w).take 10 = fixedBytes :=
  and_mask_eq_pattern_iff w (k := 10) (by decide) (by decide) (by decide)

/-- The mask of SET_LED.ON compares the mode byte with 0x03 too (R59). -/
theorem matches_setLedOn_iff (w : BitVec 128) :
    w &&& 0xFFFFFFFFFFFFFFFFFFFFFF0000000000#128 = 0xEF01FFFFFFFF0100073C030000000000#128 ↔
      (wordBytes w).take 11 = fixedBytes ++ [Config.modeOn] :=
  and_mask_eq_pattern_iff w (k := 11) (by decide) (by decide) (by decide)

/-! #### Decoding a word -/

/-- The operand bytes of a word, `W[47:16]` (R50, R52). -/
def wordCommand (w : BitVec 128) : Command :=
  ⟨w.extractLsb' 40 8, w.extractLsb' 32 8, w.extractLsb' 24 8, w.extractLsb' 16 8⟩

/-- The checksum field `W[15:0]` is bytes 14 and 15 joined (R50, R53). -/
theorem joinBytes_extractLsb' (w : BitVec 128) :
    joinBytes (w.extractLsb' 8 8) (w.extractLsb' 0 8) = w.extractLsb' 0 16 := by
  rw [joinBytes_eq_iff]
  constructor
  · ext i hi
    simp [hiByte]
  · ext i hi
    simp [loByte]

/-- A word is a frame when bytes 0 to 9 are the fixed ones and the checksum field is that of its operand bytes. -/
theorem wordBytes_eq_frameOf_iff (w : BitVec 128) (c : Command) :
    wordBytes w = frameOf c ↔
      (wordBytes w).take 10 = fixedBytes ∧ c = wordCommand w ∧ w.extractLsb' 0 16 = checksum c := by
  have hfields : wordBytes w = (wordBytes w).take 10 ++
      [(wordCommand w).mode, (wordCommand w).startColour, (wordCommand w).endColour, (wordCommand w).cycles,
        w.extractLsb' 8 8, w.extractLsb' 0 8] := rfl
  constructor
  · intro h
    rw [hfields] at h
    obtain ⟨hfixed, htail⟩ := List.append_inj h rfl
    obtain ⟨m, s, e, n⟩ := c
    simp only [List.cons.injEq, and_true] at htail
    obtain ⟨rfl, rfl, rfl, rfl, hhi, hlo⟩ := htail
    rw [← joinBytes_extractLsb', joinBytes_eq_iff]
    exact ⟨hfixed, rfl, hhi, hlo⟩
  · rintro ⟨hfixed, rfl, hsum⟩
    obtain ⟨hhi, hlo⟩ := joinBytes_eq_iff.mp ((joinBytes_extractLsb' w).trans hsum)
    rw [hfields, hfixed, frameOf, hhi, hlo]

/-- A word decodes when it matches SET_LED and its checksum field is right, to the row of its operand bytes. -/
theorem decode_wordBytes_eq_ok_iff (w : BitVec 128) (i : Instr) :
    decode (wordBytes w) = .ok i ↔
      (wordBytes w).take 10 = fixedBytes ∧ w.extractLsb' 0 16 = checksum (wordCommand w) ∧
        Instr.ofCommand (wordCommand w) = i := by
  simp only [decode_eq_ok_iff, wordBytes_eq_frameOf_iff]
  constructor
  · rintro ⟨c, ⟨hfixed, rfl, hsum⟩, hi⟩
    exact ⟨hfixed, hsum, hi⟩
  · rintro ⟨hfixed, hsum, hi⟩
    exact ⟨wordCommand w, ⟨hfixed, rfl, hsum⟩, hi⟩

/-- Settles O20: the masks compare leading bytes, and what follows the fixed bytes is the operands and their checksum. -/
theorem maskAndChecksumDecideDecoding : Obligations.MaskAndChecksumDecideDecoding := by
  intro w
  refine ⟨matches_setLed_iff w, ?_, ?_, bytesWord_wordBytes w⟩
  · rw [matches_setLed_iff]
    simp [decode_wordBytes_eq_ok_iff, checksum_eq, wordCommand, Config.ckBase]
  · intro i h
    obtain ⟨hfixed, -, rfl⟩ := (decode_wordBytes_eq_ok_iff w i).mp h
    rw [ofCommand_command, matches_setLedOn_iff, wordBytes_take_succ w (by decide), hfixed,
      ofCommand_eq_setLedOn_iff]
    simp [wordCommand]

/-- Settles O21 on the written-out strings: decoding computes. -/
theorem writtenWordsDecode : Obligations.WrittenWordsDecode := by
  unfold Obligations.WrittenWordsDecode
  decide

namespace Machine

/-- Settles O27: exec and encode see the command alone, and the two instructions have one command. -/
theorem setLedOnIsSetLedWithModeOn : Obligations.SetLedOnIsSetLedWithModeOn := by
  intro b e c s
  have hcommand : (Instr.setLedOn b e c).command = (Instr.setLed 0x03#8 b e c).command := rfl
  exact ⟨by rw [exec_eq, exec_eq, hcommand], by rw [encode, encode, hcommand]⟩

/-- A client operation between calls that leaves BlinkState alone and makes one call: that call comes next. -/
theorem step_client_send {s : State} {op : ClientOp} {rest : List HostAction} {c : Command} (hb : busy s = false)
    (hc : clockInOrder op s.blink = true) (heffect : clientEffect op s.blink = (s.blink, [sendCommand c]))
    (ha : s.agenda = .client op :: rest) :
    step s = .next { s with agenda := .send (frameOf c) :: rest } := by
  rw [step_client hb ha hc, heffect]
  rfl

/-- Settles O50: each of the five helpers makes one call, and none reads the clock. -/
theorem singleCommandHelpersSendOne : Obligations.SingleCommandHelpersSendOne := fun _ _ colour _ hb =>
  ⟨step_client_send hb rfl rfl, step_client_send hb rfl rfl,
    fun ha => ⟨modeCommand .fadeIn (Config.fadeInOperands colour), rfl, step_client_send hb rfl rfl ha⟩,
    fun ha => ⟨modeCommand .fadeOut (Config.fadeOutOperands colour), rfl, step_client_send hb rfl rfl ha⟩,
    fun ha => ⟨breatheCommand colour 0#8, rfl, rfl, step_client_send hb rfl rfl ha⟩⟩

end Machine

end Sys2Proof

/-! ### The command SET_LED (40_set_led_command.md) -/

namespace Sys2Proof

/-! #### The checksum as a number -/

/-- The sum of the four operand bytes, exact. -/
def Command.operandSum (c : Command) : Nat :=
  c.mode.toNat + c.startColour.toNat + c.endColour.toNat + c.cycles.toNat

theorem operandSum_le (c : Command) : c.operandSum ≤ 0x3FC := by
  have hm := c.mode.isLt
  have hb := c.startColour.isLt
  have he := c.endColour.isLt
  have hc := c.cycles.isLt
  unfold Command.operandSum
  omega

/-- The 16-bit sum never wraps (R73). -/
theorem checksum_toNat (c : Command) : (checksum c).toNat = 0x44 + c.operandSum := by
  have hle := operandSum_le c
  simp [checksum, zext16, Command.operandSum] at *
  omega

theorem hiByte_toNat (h : Half) : (hiByte h).toNat = h.toNat / 256 := by
  rw [hiByte, BitVec.extractLsb'_toNat, Nat.shiftRight_eq_div_pow]
  exact Nat.mod_eq_of_lt (Nat.div_lt_of_lt_mul h.isLt)

theorem loByte_toNat (h : Half) : (loByte h).toNat = h.toNat % 256 := by
  rw [loByte, BitVec.extractLsb'_toNat, Nat.shiftRight_zero]

/-- Settles O12: the checksum is 0x44 plus the exact sum, so its two bytes are quotient and remainder by 256. -/
theorem checksumNeverWraps : Obligations.ChecksumNeverWraps := by
  intro m b e c
  have hle := operandSum_le ⟨m, b, e, c⟩
  have hsum := checksum_toNat ⟨m, b, e, c⟩
  have hhi : (hiByte (checksum ⟨m, b, e, c⟩)).toNat = (0x44 + Command.operandSum ⟨m, b, e, c⟩) / 256 := by
    rw [hiByte_toNat, hsum]
  have hlo : (loByte (checksum ⟨m, b, e, c⟩)).toNat = (0x44 + Command.operandSum ⟨m, b, e, c⟩) % 256 := by
    rw [loByte_toNat, hsum]
  refine ⟨_, rfl, hsum, by omega, by omega, hhi, hlo, ?_, ?_, checksum_top _⟩
  · change _ ↔ 0xBC ≤ Command.operandSum ⟨m, b, e, c⟩
    rw [ne_eq, ← BitVec.toNat_inj, hhi, BitVec.toNat_ofNat]
    omega
  · rw [← BitVec.toNat_inj, hhi, hlo, BitVec.toNat_ofNat]
    omega

/-- Settles O13: without a wrap, the checksum is the sum of the operands moved by a constant. -/
theorem checksumSeesOnlyTheSum : Obligations.ChecksumSeesOnlyTheSum := fun c d => by
  rw [← BitVec.toNat_inj, checksum_toNat, checksum_toNat]
  exact Nat.add_left_cancel_iff

/-- Settles O11: the constant addends are CKBASE, whose value is 0x0044. -/
theorem checksumIsBasePlusOperands : Obligations.ChecksumIsBasePlusOperands :=
  ⟨fun m b e c => checksum_eq ⟨m, b, e, c⟩, by decide⟩

/-- Settles O14: the frame is a list of 16 bytes written out, and each clause reads it at an offset. -/
theorem frameLayout : Obligations.FrameLayout := fun m b e c =>
  ⟨frameOf_length ⟨m, b, e, c⟩, rfl, rfl, rfl, rfl, rfl, rfl, rfl⟩

namespace Machine

/-! #### The sink absent -/

/-- A dropped call takes the one edge that consumes it (R75, R88). -/
theorem issue_dropped {c : Command} {s : State} (hr : s.pins.rst = false) (hp : s.phase = .idle)
    (hs : s.pins.sinkPresent = false) : issue c s = nextPins s := by
  have hdrop : consume c s = nextPins s := by
    rw [consume, takeStep_drop (p := s.pins.offer c) hr hp rfl hs]
  rw [issue_consumed hr hp, hdrop, untilIdle_idle (by simpa using hp)]

/-- Settles O24: the state after the one edge is idle, and only the inputs have passed. -/
theorem setLedAbsentSinkIsSilentNoOp : Obligations.SetLedAbsentSinkIsSilentNoOp := by
  intro i s hr hp hs
  have hidle : (nextPins s).phase = .idle := by simpa using hp
  refine ⟨nextPins s, by rw [exec_eq, issue_dropped hr hp hs], fun he => ?_, fun p rest he => ?_, ?_⟩
  · simp [nextPins, he]
  · simp [nextPins, he]
  · simp [outputs_idle hidle, busy, hp]

/-! #### The call returns -/

/-- After a consumed call the framer is idle or an edge changes nothing (R97; log 6). -/
theorem issue_settles {c : Command} {s : State} (hr : s.pins.rst = false) (hp : s.phase = .idle) :
    (issue c s).phase = .idle ∨ edge (issue c s) = issue c s := by
  rw [issue_consumed hr hp]
  exact untilIdle_settles _ _ (Nat.add_le_add_left (stepsToIdle_le _) _)

/-- A busy framer that an edge does not change is held by its sink. -/
theorem sinkStalls_of_edge_eq_self {s : State} (hb : s.phase ≠ .idle) (h : edge s = s) :
    (s.phase = .send ∧ s.pins.txReady = false) ∨ (s.phase = .flush ∧ s.pins.flushDone = false) := by
  have hphase : (takeStep s.pins s).phase = s.phase := by simpa [edge] using congrArg State.phase h
  have hlog : (takeStep s.pins s).sinkLog = s.sinkLog := by simpa [edge] using congrArg State.sinkLog h
  rcases takeStep_cases s.pins s with ⟨-, e⟩ | ⟨-, hi, -⟩ | ⟨-, hi, -⟩ | ⟨-, -, -, e⟩ | ⟨-, -, -, e⟩ |
    ⟨-, hi | hstall, -⟩
  · exact absurd (by rw [← hphase, e]; rfl) hb
  · exact absurd hi hb
  · exact absurd hi hb
  · simp [e] at hlog
  · exact absurd (by rw [← hphase, e]; rfl) hb
  · exact absurd hi.1 hb
  · exact hstall

/-- The passage of the inputs keeps what does not look at them. -/
theorem OfFramerAndSink.of_nextPins {P : State → Prop} (hP : OfFramerAndSink P) {u : State} (hu : P u) :
    P (nextPins u) := by
  rw [nextPins_eq]
  exact hP u _ _ u.agenda u.blink hu

theorem inv_issue_accepted {c : Command} {s : State} (hr : s.pins.rst = false) (hp : s.phase = .idle)
    (hs : s.pins.sinkPresent = true) : Inv (issue c s) := by
  have haccept : takeStep (s.pins.offer c) s = stepAccept c s := takeStep_accept hr hp rfl hs
  rw [issue_consumed hr hp]
  refine untilIdle_induct (fun u _ hu => inv_ofFramerAndSink.of_nextPins (inv_takeStep _ hu)) _ _
    (inv_ofFramerAndSink.of_nextPins ?_)
  rw [haccept]
  exact inv_stepAccept c s

/-- An accepted call that ends idle without a reset has had its whole effect, and nothing else has changed but the
inputs (R70, R74). -/
theorem issue_eq_of_returned {c : Command} {s : State} (hn : NoReset s) (hp : s.phase = .idle)
    (hs : s.pins.sinkPresent = true) (hidle : (issue c s).phase = .idle) :
    issue c s = { s with
      x0 := c.mode, x1 := c.startColour, x2 := c.endColour, x3 := c.cycles
      ck := checksum c, idx := 0#4, phase := .idle
      sinkLog := s.sinkLog ++ framePairs c, flushes := s.flushes + 1
      pins := (issue c s).pins, schedule := (issue c s).schedule } := by
  have hidx : (issue c s).idx = 0#4 := (inv_issue_accepted hn.1 hp hs).idle_idx hidle
  obtain ⟨hcall, hagenda, hblink, -⟩ := callProgress_issue (c := c) hn.1 hp hs
  cases hcall with
  | inFlight hb => exact absurd hidle hb
  | cut hreset => exact absurd hn hreset
  | returned _ hheld hlog hfl =>
    obtain ⟨hcmd, hck, hfree⟩ := hheld
    generalize issue c s = t at *
    subst hcmd
    cases t
    simp_all [State.command]

/-- Settles O22: an ideal sink never stalls the framer, so the call returns, at the levels it began with. -/
theorem setLedCompletesOnIdealSink : Obligations.SetLedCompletesOnIdealSink := by
  intro i s hr hp hq hs ht hf
  have hn : NoReset s := ⟨hr, by simp [hq]⟩
  obtain ⟨-, -, -, hinputs⟩ := callProgress_issue (c := i.command) hr hp hs
  obtain ⟨hpins, hsched⟩ : (issue i.command s).pins = s.pins ∧ (issue i.command s).schedule = [] := by
    simpa [hq, List.suffix_cons_iff] using hinputs
  have hidle : (issue i.command s).phase = .idle := by
    rcases issue_settles (c := i.command) hr hp with hidle | hfixed
    · exact hidle
    · by_contra hb
      have hstall := sinkStalls_of_edge_eq_self hb hfixed
      simp [hpins, ht, hf] at hstall
  rw [exec_eq, issue_eq_of_returned hn hp hs hidle, hpins, hsched, ← hq]

/-! #### What a command appends does not depend on what came before -/

/-- `u` and `v`, reached from `s` and `r`, agree in PHASE, IDX and inputs, hold the same command and checksum while it is
in flight, and have appended the same pairs. -/
structure SameRun (s r u v : State) : Prop where
  phase : v.phase = u.phase
  idx : u.phase ≠ .idle → v.idx = u.idx
  command : u.phase ≠ .idle → v.command = u.command
  ck : u.phase ≠ .idle → v.ck = u.ck
  pins : v.pins = u.pins
  schedule : v.schedule = u.schedule
  log : ∃ sent, u.sinkLog = s.sinkLog ++ sent ∧ v.sinkLog = r.sinkLog ++ sent

theorem sameRun_of_idle {s r : State} (hs : s.phase = .idle) (hr : r.phase = .idle) (hpins : r.pins = s.pins)
    (hsched : r.schedule = s.schedule) : SameRun s r s r where
  phase := hr.trans hs.symm
  idx hb := absurd hs hb
  command hb := absurd hs hb
  ck hb := absurd hs hb
  pins := hpins
  schedule := hsched
  log := ⟨[], by simp, by simp⟩

theorem sameRun_stepEmit {s r u v : State} (hp : u.phase = .send) (h : SameRun s r u v) :
    SameRun s r (stepEmit u) (stepEmit v) := by
  have hb : u.phase ≠ .idle := by simp [hp]
  have hidx : v.idx = u.idx := h.idx hb
  have hnext : (stepEmit v).phase = (stepEmit u).phase ∧ (stepEmit v).idx = (stepEmit u).idx := by
    rcases offset_lt_or_last u.idx with hi | hi
    · simp [stepEmit_of_lt hi, stepEmit_of_lt (hidx ▸ hi), h.phase, hidx]
    · simp [stepEmit_of_last hi, stepEmit_of_last (hidx.trans hi)]
  obtain ⟨sent, hu, hv⟩ := h.log
  exact
    { phase := hnext.1
      idx := fun _ => hnext.2
      command := fun _ => by simpa using h.command hb
      ck := fun _ => by simpa using h.ck hb
      pins := by simpa using h.pins
      schedule := by simpa using h.schedule
      log := ⟨sent ++ [(frameByte u u.idx, u.idx == 15#4)], by simp [hu],
        by simp [hv, hidx, frameByte_congr (h.command hb) (h.ck hb)]⟩ }

theorem phase_of_selectStep_emit {p : Pins} {ph : Phase} (h : selectStep p ph = .emit) : ph = .send := by
  cases ph with
  | send => rfl
  | idle => grind [selectStep]
  | flush => grind [selectStep]

theorem sameRun_takeStep {s r u v : State} (p : Pins) (h : SameRun s r u v) :
    SameRun s r (takeStep p u) (takeStep p v) := by
  unfold takeStep
  rw [h.phase]
  cases hsel : selectStep p u.phase with
  | reset => exact ⟨rfl, fun _ => rfl, by simp, by simp, h.pins, h.schedule, h.log⟩
  | accept => exact ⟨rfl, fun _ => rfl, fun _ => rfl, fun _ => rfl, h.pins, h.schedule, h.log⟩
  | drop => exact h
  | emit => exact sameRun_stepEmit (phase_of_selectStep_emit hsel) h
  | complete => exact ⟨rfl, by simp, by simp, by simp, h.pins, h.schedule, h.log⟩
  | hold => exact h

theorem sameRun_nextPins {s r u v : State} (h : SameRun s r u v) : SameRun s r (nextPins u) (nextPins v) := by
  obtain ⟨hphase, hidx, hcmd, hck, hpins, hsched, hlog⟩ := h
  unfold nextPins
  rw [hsched]
  cases u.schedule with
  | nil => exact ⟨hphase, hidx, hcmd, hck, hpins, hsched, hlog⟩
  | cons p rest => exact ⟨hphase, hidx, hcmd, hck, rfl, rfl, hlog⟩

theorem sameRun_edge {s r u v : State} (h : SameRun s r u v) : SameRun s r (edge u) (edge v) := by
  unfold edge
  rw [h.pins]
  exact sameRun_nextPins (sameRun_takeStep u.pins h)

theorem sameRun_untilIdle (n : Nat) {s r u v : State} (h : SameRun s r u v) :
    SameRun s r (untilIdle n u) (untilIdle n v) := by
  induction n generalizing u v with
  | zero => exact h
  | succ n ih =>
    by_cases hp : u.phase = .idle
    · rwa [untilIdle_idle hp, untilIdle_idle (h.phase.trans hp)]
    · rw [untilIdle_busy hp, untilIdle_busy (h.phase ▸ hp)]
      exact ih (sameRun_edge h)

/-- Consumed in idle states with equal inputs, a command runs the same way, resets in the call included. -/
theorem sameRun_issue {c : Command} {s r : State} (hs : s.phase = .idle) (hr : r.phase = .idle)
    (hrst : s.pins.rst = false) (hpins : r.pins = s.pins) (hsched : r.schedule = s.schedule) :
    SameRun s r (issue c s) (issue c r) := by
  have hconsume : SameRun s r (consume c s) (consume c r) := by
    unfold consume
    rw [hpins]
    exact sameRun_nextPins (sameRun_takeStep _ (sameRun_of_idle hs hr hpins hsched))
  rw [issue_consumed hrst hs, issue_consumed (hpins ▸ hrst) hr, callBound, callBound, hconsume.schedule]
  exact sameRun_untilIdle _ hconsume

/-- Settles O28: the two runs go side by side, edge for edge, and append the same pairs. -/
theorem frameIndependentOfHistory : Obligations.FrameIndependentOfHistory := by
  intro i s r s' r' hs hr hrst hpins hsched hs' hr'
  rw [exec_eq, Host.Outcome.next.injEq] at hs' hr'
  subst hs' hr'
  exact (sameRun_issue hs hr hrst hpins hsched).log

end Machine

end Sys2Proof

/-! ### The framer's clock edges (41_framer_steps.md) -/

namespace Sys2Proof.Machine

/-! #### The rows of the table (R86) -/

/-- The HOLD rows (R91). -/
theorem takeStep_hold {p : Pins} {s : State} (hr : p.rst = false)
    (h : (s.phase = .idle ∧ p.cmdValid = false) ∨ (s.phase = .send ∧ p.txReady = false) ∨
      (s.phase = .flush ∧ p.flushDone = false)) : takeStep p s = s := by
  rcases h with ⟨hp, hv⟩ | ⟨hp, ht⟩ | ⟨hp, hf⟩
  · simp [takeStep, selectStep, hr, hp, hv]
  · simp [takeStep, selectStep, hr, hp, ht]
  · simp [takeStep, selectStep, hr, hp, hf]

/-- `flush_done` is looked at only in FLUSH (R90). -/
theorem takeStep_flushDone {s : State} (hp : s.phase ≠ .flush) (p : Pins) (v : Bool) :
    takeStep { p with flushDone := v } s = takeStep p s := by
  have hsel : selectStep { p with flushDone := v } s.phase = selectStep p s.phase := by
    cases h : s.phase with
    | idle => rfl
    | send => rfl
    | flush => exact absurd h hp
  unfold takeStep
  rw [hsel]
  rfl

/-- Settles O2: RESET touches the framer's registers only. -/
theorem resetEdgeTransfersNothing : Obligations.ResetEdgeTransfersNothing := fun _ s hr =>
  ⟨stepReset s, takeStep_reset hr, rfl, rfl, rfl, rfl, rfl, rfl, rfl, rfl⟩

/-- Settles O4, row by row. -/
theorem stepSelectionFollowsTable : Obligations.StepSelectionFollowsTable := fun _ _ =>
  ⟨takeStep_reset,
    fun hr => ⟨takeStep_accept hr, takeStep_drop hr, fun hp hv => takeStep_hold hr (.inl ⟨hp, hv⟩), takeStep_emit hr,
      fun hp ht => takeStep_hold hr (.inr (.inl ⟨hp, ht⟩)), takeStep_complete hr,
      fun hp hf => takeStep_hold hr (.inr (.inr ⟨hp, hf⟩))⟩,
    fun hb _ => takeStep_busy_congr hb rfl rfl rfl⟩

/-- Settles O5: the state after an ACCEPT is busy, so the command port is not looked at. -/
theorem acceptLatchesOperandsAndChecksum : Obligations.AcceptLatchesOperandsAndChecksum := fun p s hr hp hv hs =>
  ⟨stepAccept p.command s, takeStep_accept hr hp hv hs, rfl, rfl,
    fun _ _ _ => takeStep_busy_congr (by simp) rfl rfl rfl⟩

/-- Settles O6: the state after a DROP is the idle state before it. -/
theorem dropChangesNothing : Obligations.DropChangesNothing := by
  intro p s hr hp hv hs
  rw [takeStep_drop hr hp hv hs, outputs_idle hp]
  exact ⟨rfl, by simp [busy, hp], rfl⟩

/-- Settles O8: a COMPLETE leaves the framer idle, and only the FLUSH row of the table reads `flush_done`. -/
theorem completeCountsTheFlush : Obligations.CompleteCountsTheFlush := by
  refine fun p s => ⟨fun hr hp hf => ?_, fun hp => by simp [outputs, hp], fun hp v => takeStep_flushDone hp p v⟩
  rw [takeStep_complete hr hp hf, outputs_idle (stepComplete_phase s)]
  exact ⟨rfl, rfl, rfl⟩

/-- Settles O9: a HOLD step answers the state it was given. -/
theorem holdChangesNothing : Obligations.HoldChangesNothing := by
  intro p s hr h
  rw [takeStep_hold hr h]
  exact ⟨rfl, rfl⟩

/-! #### The 16 EMIT steps after an ACCEPT (R89) -/

/-- After `j` EMIT steps, `j` below 16, the framer is in SEND at offset `j`. -/
theorem emits_send (c : Command) (s : State) {j : Nat} (hj : j < 16) :
    (stepEmit^[j] (stepAccept c s)).phase = .send ∧ (stepEmit^[j] (stepAccept c s)).idx.toNat = j := by
  induction j with
  | zero => exact ⟨rfl, rfl⟩
  | succ j ih =>
    obtain ⟨hp, hi⟩ := ih (by omega)
    have hlt : (stepEmit^[j] (stepAccept c s)).idx < 15#4 := by rw [BitVec.lt_def, hi]; simp; omega
    rw [Function.iterate_succ_apply', stepEmit_of_lt hlt]
    exact ⟨hp, by rw [offset_succ_toNat hlt, hi]⟩

/-- After 16 EMIT steps the framer is in FLUSH. -/
theorem emits_flush (c : Command) (s : State) : (stepEmit^[16] (stepAccept c s)).phase = .flush := by
  have hlast : (stepEmit^[15] (stepAccept c s)).idx = 15#4 :=
    BitVec.eq_of_toNat_eq (emits_send c s (by omega)).2
  rw [Function.iterate_succ_apply', stepEmit_of_last hlast]

/-- Settles O7: EMIT by the offset, below 15 or 15, and the offsets count the EMIT steps. -/
theorem emitHandsOverTheByteAtIdx : Obligations.EmitHandsOverTheByteAtIdx := by
  refine ⟨fun p s hr hp ht => ⟨fun hi => ?_, fun hi => ?_, ?_, fun v => ?_⟩,
    fun c s => ⟨fun j hj => emits_send c s hj, emits_flush c s⟩⟩
  · rw [takeStep_emit hr hp ht, stepEmit_of_lt hi]
  · rw [takeStep_emit hr hp ht, stepEmit_of_last hi]
  · rw [takeStep_emit hr hp ht, busy_stepEmit hp]
  · exact takeStep_busy_congr (by simp [hp]) rfl rfl rfl

/-! #### The call as a run of edges (R96) -/

/-- Settles O25: the wait's edge is taken with the call put back on the agenda. -/
theorem setLedWaitsWhileBusyOrInReset : Obligations.SetLedWaitsWhileBusyOrInReset := fun i s h => by
  rw [exec_eq, issue_waits h]
  rfl

/-- A command that is on the port already is consumed by an edge. -/
theorem consume_eq_edge {c : Command} {s : State} (hv : s.pins.cmdValid = true) (hc : s.pins.command = c) :
    consume c s = edge s := by
  have hoffer : s.pins.offer c = s.pins := by rw [← hc, Pins.offer, ← hv]; rfl
  rw [consume, hoffer, edge]

/-- Settles O29: one edge consumes the command, and the host's wait is a run of edges. -/
theorem callIsARunOfEdges : Obligations.CallIsARunOfEdges := by
  intro i s hr hp hv hc
  have hrun : issue i.command s = untilIdle (callBound (edge s)) (edge s) := by
    rw [issue_consumed hr hp, consume_eq_edge hv hc]
  obtain ⟨k, hk, hedges, hbusy⟩ := untilIdle_eq_edges (callBound (edge s)) (edge s)
  have hissue : issue i.command s = edges (k + 1) s := by rw [hrun, hedges, edges_succ]
  rw [callBound, edge_schedule_length] at hk
  refine ⟨k + 1, by rw [exec_eq, hissue], by omega, by omega, fun j h1 hj => ?_, ?_⟩
  · obtain ⟨n, rfl⟩ := Nat.exists_eq_add_of_le' h1
    exact hbusy n (by omega)
  · rw [← hissue]
    exact (issue_settles hr hp).imp_right edges_fixed

/-! #### A fair sink (R94(e)) -/

/-- Once an edge changes nothing, waiting longer changes nothing. -/
theorem untilIdle_stays {u : State} {k n : Nat} (hfixed : edge (untilIdle k u) = untilIdle k u) (hn : k ≤ n) :
    untilIdle n u = untilIdle k u := by
  rw [← Nat.add_sub_cancel' hn, untilIdle_add, untilIdle_fixed hfixed]

/-- A sink that takes every byte of the command does not leave the framer at a byte for good. -/
theorem TakesEveryByte.ready_of_fixed {u : State} {k : Nat} (h : TakesEveryByte u)
    (hfixed : edge (untilIdle k u) = untilIdle k u) (hp : (untilIdle k u).phase = .send) :
    (untilIdle k u).pins.txReady = true := by
  obtain ⟨n, hn, hready⟩ := h k fun n hn => by rw [untilIdle_stays hfixed hn]; simp [outputs, hp]
  rwa [untilIdle_stays hfixed hn] at hready

/-- A sink that confirms the flush of the command does not leave the framer at its request for good. -/
theorem ConfirmsTheFlush.done_of_fixed {u : State} {k : Nat} (h : ConfirmsTheFlush u)
    (hfixed : edge (untilIdle k u) = untilIdle k u) (hp : (untilIdle k u).phase = .flush) :
    (untilIdle k u).pins.flushDone = true := by
  obtain ⟨n, hn, hdone⟩ := h k fun n hn => by rw [untilIdle_stays hfixed hn]; simp [outputs, hp]
  rwa [untilIdle_stays hfixed hn] at hdone

/-- A call that does not return to IDLE ends where the framer holds: never at a byte, when the sink takes every byte. -/
theorem issue_idle_or_flush_stalled {c : Command} {s : State} (hr : s.pins.rst = false) (hp : s.phase = .idle)
    (h : TakesEveryByte (consume c s)) :
    (issue c s).phase = .idle ∨
      ((issue c s).phase = .flush ∧ (issue c s).pins.flushDone = false ∧ edge (issue c s) = issue c s) := by
  by_cases hb : (issue c s).phase = .idle
  · exact .inl hb
  have hfixed : edge (issue c s) = issue c s := (issue_settles hr hp).resolve_left hb
  rcases sinkStalls_of_edge_eq_self hb hfixed with ⟨hsend, hstall⟩ | ⟨hflush, hstall⟩
  · rw [issue_consumed hr hp] at hfixed hsend hstall
    exact absurd (h.ready_of_fixed hfixed hsend) (by simp [hstall])
  · exact .inr ⟨hflush, hstall, hfixed⟩

/-- A fair sink lets the call return (R94(e), R96). -/
theorem issue_idle_of_fairSink {c : Command} {s : State} (hr : s.pins.rst = false) (hp : s.phase = .idle)
    (h : FairSink (consume c s)) : (issue c s).phase = .idle := by
  rcases issue_idle_or_flush_stalled hr hp h.1 with hidle | ⟨hflush, hstall, hfixed⟩
  · exact hidle
  · rw [issue_consumed hr hp] at hflush hstall hfixed
    exact absurd (h.2.done_of_fixed hfixed hflush) (by simp [hstall])

/-- The transaction-level pseudocode with the sink present (R70, R74). -/
theorem transact_present {s : State} (h : s.pins.sinkPresent = true) (c : Command) :
    transact c s = sinkFlush { s with sinkLog := s.sinkLog ++ framePairs c } := by
  rw [transact, if_pos h, sinkWriteAll_eq]
  rfl

/-- Settles O23: under a fair sink the call returns, and what it then has changed is what the pseudocode says. -/
theorem setLedAgreesWithTransactionUnderFairSink : Obligations.SetLedAgreesWithTransactionUnderFairSink := by
  intro i s hn hp hs hfair
  have hidle : (issue i.command s).phase = .idle := issue_idle_of_fairSink hn.1 hp hfair
  obtain ⟨-, hhost⟩ := callProgress_issue (c := i.command) hn.1 hp hs
  rw [transact_present hs]
  exact ⟨issue i.command s, exec_eq i s, issue_eq_of_returned hn hp hs hidle, rfl, rfl, hhost.inputs⟩

/-! #### A silent sink (R97) -/

/-- A framer that holds at all the coming levels keeps its state: only the inputs pass. -/
theorem sameButInputs_edges_of_holds (k : Nat) {s : State} (h : ∀ p ∈ s.pins :: s.schedule, takeStep p s = s) :
    SameButInputs (edges k s) s := by
  induction k generalizing s with
  | zero => rfl
  | succ k ih =>
    have hedge : edge s = nextPins s := by rw [edge, h s.pins List.mem_cons_self]
    have hnext : ∀ p ∈ (nextPins s).pins :: (nextPins s).schedule, takeStep p (nextPins s) = nextPins s := by
      intro p hmem
      rw [nextPins_eq, takeStep_withInputs, h p ((nextPins_inputs_suffix s).subset hmem)]
    have hrest : SameButInputs (edges k (nextPins s)) (nextPins s) := ih hnext
    rw [nextPins_eq s] at hrest
    rw [edges_succ, hedge]
    unfold SameButInputs at hrest ⊢
    rw [nextPins_eq s]
    exact hrest

theorem SinkNeverReady.holds {s : State} (h : SinkNeverReady s) (hp : s.phase = .send) :
    ∀ p ∈ s.pins :: s.schedule, takeStep p s = s := by
  obtain ⟨hr, ht, hall⟩ := h
  refine List.forall_mem_cons.mpr ⟨takeStep_hold hr (.inr (.inl ⟨hp, ht⟩)), fun p hmem => ?_⟩
  obtain ⟨hr', ht'⟩ := hall p hmem
  exact takeStep_hold hr' (.inr (.inl ⟨hp, ht'⟩))

theorem SinkNeverFlushes.holds {s : State} (h : SinkNeverFlushes s) (hp : s.phase = .flush) :
    ∀ p ∈ s.pins :: s.schedule, takeStep p s = s := by
  obtain ⟨hr, hf, hall⟩ := h
  refine List.forall_mem_cons.mpr ⟨takeStep_hold hr (.inr (.inr ⟨hp, hf⟩)), fun p hmem => ?_⟩
  obtain ⟨hr', hf'⟩ := hall p hmem
  exact takeStep_hold hr' (.inr (.inr ⟨hp, hf'⟩))

theorem sinkNeverReady_iff {s : State} :
    SinkNeverReady s ↔ ∀ p ∈ s.pins :: s.schedule, p.rst = false ∧ p.txReady = false := by
  simp [SinkNeverReady, and_assoc]

theorem sinkNeverFlushes_iff {s : State} :
    SinkNeverFlushes s ↔ ∀ p ∈ s.pins :: s.schedule, p.rst = false ∧ p.flushDone = false := by
  simp [SinkNeverFlushes, and_assoc]

theorem SinkNeverReady.of_suffix {s u : State} (h : SinkNeverReady s)
    (hin : u.pins :: u.schedule <:+ s.pins :: s.schedule) : SinkNeverReady u :=
  sinkNeverReady_iff.mpr fun p hp => sinkNeverReady_iff.mp h p (hin.subset hp)

theorem SinkNeverFlushes.of_suffix {s u : State} (h : SinkNeverFlushes s)
    (hin : u.pins :: u.schedule <:+ s.pins :: s.schedule) : SinkNeverFlushes u :=
  sinkNeverFlushes_iff.mpr fun p hp => sinkNeverFlushes_iff.mp h p (hin.subset hp)

theorem SinkNeverFlushes.noReset {s : State} (h : SinkNeverFlushes s) : NoReset s :=
  noReset_iff.mpr fun p hp => (sinkNeverFlushes_iff.mp h p hp).1

/-- A busy framer whose flush is not confirmed stays busy. -/
theorem takeStep_busy_of_unflushed {p : Pins} {s : State} (hr : p.rst = false) (hf : p.flushDone = false)
    (hb : s.phase ≠ .idle) : (takeStep p s).phase ≠ .idle := by
  rcases takeStep_cases p s with ⟨hrst, -⟩ | ⟨-, hi, -⟩ | ⟨-, hi, -⟩ | ⟨-, hp, -, e⟩ | ⟨-, -, hdone, -⟩ | ⟨-, -, e⟩
  · simp [hr] at hrst
  · exact absurd hi hb
  · exact absurd hi hb
  · simpa [e, busy] using busy_stepEmit hp
  · simp [hf] at hdone
  · rwa [e]

/-- An accepted command begins its run in the state after ACCEPT, at the next levels (R87). -/
theorem consume_accepted {s : State} (hr : s.pins.rst = false) (hp : s.phase = .idle)
    (hs : s.pins.sinkPresent = true) (c : Command) : consume c s = nextPins (stepAccept c s) := by
  rw [consume, takeStep_accept (p := s.pins.offer c) hr hp rfl hs, offer_command]

/-- A call whose flush is never confirmed does not return (R97). -/
theorem issue_busy_of_sinkNeverFlushes {c : Command} {s : State} (h : SinkNeverFlushes s) (hp : s.phase = .idle)
    (hs : s.pins.sinkPresent = true) : (issue c s).phase ≠ .idle := by
  have hinputs := nextPins_inputs_suffix (stepAccept c s)
  rw [issue_consumed h.1 hp, consume_accepted h.1 hp hs]
  refine (untilIdle_induct (P := fun u => u.phase ≠ .idle ∧ SinkNeverFlushes u) ?_ _ _
    ⟨by simp, h.of_suffix hinputs⟩).1
  rintro u hb ⟨-, hu⟩
  have hstep : (takeStep u.pins u).phase ≠ .idle := takeStep_busy_of_unflushed hu.1 hu.2.1 hb
  exact ⟨by simpa [edge] using hstep, hu.of_suffix (nextPins_takeStep_inputs_suffix u.pins u)⟩

/-- A call whose first byte is never taken holds right after its ACCEPT (R97). -/
theorem sameButInputs_issue_of_sinkNeverReady {c : Command} {s : State} (h : SinkNeverReady s) (hp : s.phase = .idle)
    (hs : s.pins.sinkPresent = true) : SameButInputs (issue c s) (nextPins (stepAccept c s)) := by
  have hready : SinkNeverReady (nextPins (stepAccept c s)) := h.of_suffix (nextPins_inputs_suffix (stepAccept c s))
  rw [issue_consumed h.1 hp, consume_accepted h.1 hp hs]
  obtain ⟨k, -, hedges, -⟩ := untilIdle_eq_edges (callBound (nextPins (stepAccept c s))) (nextPins (stepAccept c s))
  rw [hedges]
  exact sameButInputs_edges_of_holds k (hready.holds (by simp))

/-- What the ports and the sink's record show of a framer that holds while busy. -/
theorem SameButInputs.hangs {s u : State} (h : SameButInputs u s) (hb : s.phase ≠ .idle) :
    u.phase = s.phase ∧ u.idx = s.idx ∧ u.sinkLog = s.sinkLog ∧ u.flushes = s.flushes ∧
      (outputs u).busy = true ∧ (outputs u).cmdReady = false := by
  rw [h]
  simp [outputs, busy, hb]

/-- Settles O30: without the sink's signal every edge holds, and the two calls hold where they wait for it. -/
theorem silentSinkHangs : Obligations.SilentSinkHangs := by
  refine ⟨fun s k hp h => ?_, fun s k hp h => ?_, fun i s hp hs h => ?_, fun i s hp hs h htakes => ?_⟩
  · rw [← hp]
    exact (sameButInputs_edges_of_holds k (h.holds hp)).hangs (by simp [hp])
  · rw [← hp]
    exact (sameButInputs_edges_of_holds k (h.holds hp)).hangs (by simp [hp])
  · obtain ⟨hphase, hidx, hlog, hfl, -⟩ :=
      (sameButInputs_issue_of_sinkNeverReady (c := i.command) h hp hs).hangs (by simp)
    obtain ⟨-, hhost⟩ := callProgress_issue (c := i.command) h.1 hp hs
    exact ⟨issue i.command s, exec_eq i s, by simpa using hphase, by simpa using hidx, by simpa using hlog,
      by simpa using hfl, h.of_suffix hhost.inputs⟩
  · have hb : (issue i.command s).phase ≠ .idle := issue_busy_of_sinkNeverFlushes h hp hs
    obtain ⟨hflush, -⟩ := (issue_idle_or_flush_stalled h.1 hp htakes).resolve_left hb
    obtain ⟨hcall, hhost⟩ := callProgress_issue (c := i.command) h.1 hp hs
    obtain ⟨j, -, hlog, -, hrecord⟩ := hcall.record
    obtain ⟨rfl, hfl⟩ := (hrecord h.noReset).2.2 hflush
    rw [List.take_of_length_le (by simp)] at hlog
    exact ⟨issue i.command s, exec_eq i s, hflush, hlog, hfl, h.of_suffix hhost.inputs⟩

/-! #### With everything ready (R95) -/

/-- With no change scheduled an edge is the framer's step (log 4). -/
theorem edge_of_unscheduled {s : State} (h : s.schedule = []) : edge s = takeStep s.pins s := by
  rw [edge, nextPins, takeStep_schedule, h]

/-- EMIT steps leave the inputs alone. -/
theorem emits_inputs (j : Nat) (s : State) :
    (stepEmit^[j] s).pins = s.pins ∧ (stepEmit^[j] s).schedule = s.schedule := by
  induction j with
  | zero => exact ⟨rfl, rfl⟩
  | succ j ih =>
    rw [Function.iterate_succ_apply', stepEmit_pins, stepEmit_schedule]
    exact ih

/-- Up to the 16th EMIT step the command is in flight. -/
theorem callProgress_emits (c : Command) (s : State) {j : Nat} (hj : j ≤ 16) :
    CallProgress c s (stepEmit^[j] (stepAccept c s)) := by
  induction j with
  | zero => exact callProgress_stepAccept c s
  | succ j ih =>
    have hp : (stepEmit^[j] (stepAccept c s)).phase = .send := (emits_send c s hj).1
    rw [Function.iterate_succ_apply', ← takeStep_emit (p := Pins.idealSink) rfl hp rfl]
    exact callProgress_takeStep (by simp [hp]) nofun (ih (by omega))

/-- With the sink ready each edge in SEND is an EMIT: the edges after the ACCEPT are EMIT steps in a row. -/
theorem edges_eq_emits {c : Command} {s : State} (hq : s.schedule = []) (hr : s.pins.rst = false)
    (ht : s.pins.txReady = true) {j : Nat} (hj : j ≤ 16) :
    edges j (stepAccept c s) = stepEmit^[j] (stepAccept c s) := by
  induction j with
  | zero => rfl
  | succ j ih =>
    obtain ⟨hpins, hsched⟩ := emits_inputs j (stepAccept c s)
    have hp : (stepEmit^[j] (stepAccept c s)).phase = .send := (emits_send c s hj).1
    rw [edges_add, ih (by omega), Function.iterate_succ_apply', edges_succ, edges,
      edge_of_unscheduled (hsched.trans hq), hpins]
    exact takeStep_emit hr hp ht

/-- Settles O32: the first edge accepts the command, the next 16 are EMIT steps, and the last completes it. -/
theorem shortestCommandTakesEighteenEdges : Obligations.ShortestCommandTakesEighteenEdges := by
  intro s hp hq hr hv hs ht hf
  have hn : NoReset s := ⟨hr, by simp [hq]⟩
  have haccept : edge s = stepAccept s.pins.command s := by
    rw [edge_of_unscheduled hq, takeStep_accept hr hp hv hs]
  have hemits : ∀ {j}, j ≤ 16 → edges (j + 1) s = stepEmit^[j] (stepAccept s.pins.command s) := fun hj => by
    rw [edges_succ, haccept, edges_eq_emits hq hr ht hj]
  have hflush : (edges 17 s).phase = .flush := by rw [hemits (le_refl 16)]; exact emits_flush _ _
  have hcomplete : edges 18 s = stepComplete (edges 17 s) := by
    obtain ⟨hpins, hsched⟩ := emits_inputs 16 (stepAccept s.pins.command s)
    rw [← hemits (le_refl 16)] at hpins hsched
    have hlast : edges 18 s = edge (edges 17 s) := edges_add 17 1 s
    rw [hlast, edge_of_unscheduled (hsched.trans hq), hpins]
    exact takeStep_complete hr hflush hf
  refine ⟨fun k hk => ?_, hflush, by rw [hcomplete]; rfl, ?_⟩
  · obtain ⟨hsend, hidx⟩ := emits_send s.pins.command s hk
    obtain ⟨j, -, hlog, -, hrecord⟩ := (callProgress_emits s.pins.command s hk.le).record
    obtain ⟨rfl, -⟩ := (hrecord hn).2.1 hsend
    rw [hemits hk.le]
    exact ⟨hsend, hidx, by rw [hlog, hidx]⟩
  · obtain ⟨j, -, hlog, -, hrecord⟩ := (callProgress_emits s.pins.command s (le_refl 16)).record
    obtain ⟨rfl, hfl⟩ := (hrecord hn).2.2 (emits_flush _ _)
    rw [List.take_of_length_le (by simp)] at hlog
    rw [hcomplete, stepComplete_sinkLog, stepComplete_flushes, hemits (le_refl 16)]
    exact ⟨hlog, by rw [hfl]⟩

/-! #### The step function (R85, R93) -/

theorem step_no_action {s : State} (ha : s.agenda = []) : step s = .next (edge s) := by
  simp [step, runAgenda, ha]

theorem step_wait {s : State} {ms : Nat} {rest : List HostAction} (ha : s.agenda = .wait ms :: rest)
    (hb : busy s = false) : step s = .next (edge { s with agenda := rest }) := by
  simp [step, runAgenda, ha, hb]

theorem step_wait_busy {s : State} {ms : Nat} {rest : List HostAction} (ha : s.agenda = .wait ms :: rest)
    (hb : busy s = true) : step s = .next (edge s) := by
  simp [step, runAgenda, ha, hb]

theorem step_client_busy {s : State} {op : ClientOp} {rest : List HostAction} (ha : s.agenda = .client op :: rest)
    (hb : busy s = true) : step s = .next (edge s) := by
  simp [step, runAgenda, ha, hb]

/-- A client operation between calls that breaks the Clock contract (R123; log 13). -/
theorem step_client_refused {s : State} {op : ClientOp} {rest : List HostAction} (hb : busy s = false)
    (ha : s.agenda = .client op :: rest) (hc : clockInOrder op s.blink = false) :
    step s = .refused .clockWentBack := by
  simp [step, runAgenda, ha, hb, runClient, hc]

/-- Settles O33: step fetches the call, decodes it and runs it. -/
theorem stepRunsTheDecodedCall : Obligations.StepRunsTheDecodedCall := fun s frame rest i ha hdecode => by
  simp [step, runAgenda, ha, runCall, hdecode]

/-- Settles O34, by the host's next action and BUSY. -/
theorem stepIsAnEdgeWithoutACall : Obligations.StepIsAnEdgeWithoutACall := fun _ _ =>
  ⟨step_no_action, fun _ => step_wait, fun _ => step_wait_busy, fun _ => step_client_busy⟩

/-! #### The end of a run (R99) -/

theorem AccountedBy.of_idle {done : List Command} {s t : State} (h : AccountedBy done s) (hs : s.phase = .idle)
    (ht : t.phase = .idle) (hlog : t.sinkLog = s.sinkLog) (hfl : t.flushes = s.flushes) : AccountedBy done t := by
  obtain ⟨hlog', hfl'⟩ := h
  exact ⟨by rw [hlog, hlog', inFlight_idle hs, inFlight_idle ht], by rw [hfl, hfl']⟩

/-- The client call that has no next state is a poll before the phase start (R123; log 13). -/
theorem clockInOrder_eq_false {op : ClientOp} {b : BlinkState} (h : clockInOrder op b = false) :
    ∃ now, op = .poll now ∧ b.active = true ∧ now < b.phaseStart := by
  cases op with
  | poll now =>
    obtain ⟨hactive, hlt⟩ : b.active = true ∧ ¬ b.phaseStart ≤ now := by simpa [clockInOrder] using h
    exact ⟨now, rfl, hactive, BitVec.not_le.mp hlt⟩
  | _ => simp [clockInOrder] at h

/-- What a finished run keeps: its account, and that it is finished and without a reset. -/
def FinishedBy (done : List Command) (s : State) : Prop := AccountedBy done s ∧ Finished s ∧ NoReset s

/-- An edge of a finished run holds: no command is offered. -/
theorem finishedBy_edge {done : List Command} {s : State} (h : FinishedBy done s) : FinishedBy done (edge s) := by
  obtain ⟨hacc, ⟨hp, hoffers, hv, hlater⟩, hn⟩ := h
  have hedge : edge s = nextPins s := by rw [edge, takeStep_hold hn.1 (.inl ⟨hp, hv⟩)]
  have hinputs := nextPins_inputs_suffix s
  have hquiet : ∀ p ∈ s.pins :: s.schedule, p.cmdValid = false := List.forall_mem_cons.mpr ⟨hv, hlater⟩
  have hquiet' := List.forall_mem_cons.mp fun p hmem => hquiet p (hinputs.subset hmem)
  rw [hedge]
  exact ⟨hacc.of_idle hp (by simpa using hp) (by simp) (by simp), ⟨by simpa using hp, by simpa using hoffers, hquiet'⟩,
    hn.of_suffix hinputs⟩

/-- A change of the host's agenda and BlinkState is none of the framer. -/
theorem FinishedBy.with_host {done : List Command} {s : State} (h : FinishedBy done s) {agenda : List HostAction}
    {blink : BlinkState} (hoffers : offersNoCommand agenda blink = true) :
    FinishedBy done { s with agenda := agenda, blink := blink } := by
  obtain ⟨hacc, ⟨hp, -, hquiet⟩, hn⟩ := h
  exact ⟨hacc.of_idle hp hp rfl rfl, ⟨hp, hoffers, hquiet⟩, hn⟩

/-- Settles O42, by the host's next action: nothing, a wait, or a client operation that sends nothing. -/
theorem finishedRunIsWholeFrames : Obligations.FinishedRunIsWholeFrames := by
  intro s done hacc hfin hn
  have hp : s.phase = .idle := hfin.1
  have hoffers : offersNoCommand s.agenda s.blink = true := hfin.2.1
  have hb : busy s = false := by simp [busy, hp]
  have hby : FinishedBy done s := ⟨hacc, hfin, hn⟩
  refine ⟨by simpa [inFlight_idle hp] using hacc.1, hacc.2, ?_⟩
  match ha : s.agenda with
  | [] => exact .inl ⟨_, step_no_action ha, finishedBy_edge hby⟩
  | .send frame :: rest => simp [ha, offersNoCommand] at hoffers
  | .wait ms :: rest =>
    rw [ha] at hoffers
    exact .inl ⟨_, step_wait ha hb, finishedBy_edge (hby.with_host (blink := s.blink) hoffers)⟩
  | .client op :: rest =>
    cases hc : clockInOrder op s.blink with
    | true =>
      obtain ⟨hwaits, hrest⟩ : (clientEffect op s.blink).2.all isWait = true ∧
          offersNoCommand rest (clientEffect op s.blink).1 = true := by
        simpa [ha, offersNoCommand, Bool.and_eq_true] using hoffers
      exact .inl ⟨_, step_client hb ha hc, hby.with_host (by rw [offersNoCommand_waits hwaits, hrest])⟩
    | false =>
      obtain ⟨now, rfl, hactive, hlt⟩ := clockInOrder_eq_false hc
      exact .inr ⟨now, rest, rfl, hactive, hlt, step_client_refused hb ha hc⟩

/-! #### The byte at an offset -/

/-- FrameByte reads the frame space (R18). -/
theorem frameByte_eq_getElem (s : State) (k : Offset) :
    frameByte s k = (frameSpace s)[k.toNat]'(by simpa using k.isLt) := by
  rw [frameSpace_getElem s k.toNat k.isLt, BitVec.ofNat_toNat, BitVec.setWidth_eq]

/-- Offsets 0 to 13 hold no byte of CK (R18). -/
theorem frameByte_withCk_of_lt {k : Offset} (h : k < 14#4) (s : State) (ck : Half) :
    frameByte { s with ck := ck } k = frameByte s k := by
  have hk : k.toNat < (fixedBytes ++ [s.x0, s.x1, s.x2, s.x3]).length := h
  have hspace : ∀ u : State,
      frameSpace u = (fixedBytes ++ [u.x0, u.x1, u.x2, u.x3]) ++ [hiByte u.ck, loByte u.ck] := fun _ => rfl
  simp only [frameByte_eq_getElem, hspace, List.getElem_append_left hk]

@[simp] theorem frameSpace_stepEmit (s : State) : frameSpace (stepEmit s) = frameSpace s := by simp [frameSpace_eq]

/-! #### The variant that sums while streaming (R98) -/

/-- The addends of the streamed sum: as many of the eight bytes from offset 6 on as have been sent. -/
theorem streamedCk_eq (s : State) :
    streamedCk s =
      (((frameSpace s).drop 6).take (min 8 (s.idx.toNat - 6))).foldl (fun v b => v + zext16 b) 0#16 := by
  rw [streamedCk, List.drop_take, List.take_take]

/-- From offset 14 on all eight addends of R71 have been added. -/
theorem streamedCk_eq_checksum {s : State} (h : 14#4 ≤ s.idx) : streamedCk s = checksum s.command := by
  have hmin : min 8 (s.idx.toNat - 6) = 8 := by
    rw [BitVec.le_def, BitVec.toNat_ofNat] at h
    omega
  rw [streamedCk_eq, hmin, frameSpace_eq]
  simp [fixedBytes, checksum, zext16, State.command]

/-- An EMIT of offsets 6 to 13 adds its byte to the streamed sum, the others add nothing (R98). -/
theorem streamedCk_stepEmit {s : State} (h : s.idx < 15#4) :
    streamedCk (stepEmit s) =
      if 6#4 ≤ s.idx ∧ s.idx ≤ 13#4 then streamedCk s + zext16 (frameByte s s.idx) else streamedCk s := by
  have hidx : (stepEmit s).idx.toNat = s.idx.toNat + 1 := by rw [stepEmit_of_lt h]; exact offset_succ_toNat h
  simp only [BitVec.le_def, BitVec.toNat_ofNat, streamedCk_eq, frameSpace_stepEmit, hidx]
  split
  · next hsum =>
    have hlen : s.idx.toNat - 6 < ((frameSpace s).drop 6).length := by simp; omega
    have hmin : min 8 (s.idx.toNat + 1 - 6) = min 8 (s.idx.toNat - 6) + 1 := by omega
    have hbyte : frameByte s s.idx = ((frameSpace s).drop 6)[s.idx.toNat - 6] := by
      simp only [frameByte_eq_getElem, List.getElem_drop, Nat.add_sub_cancel' (show 6 ≤ s.idx.toNat by omega)]
    rw [hmin, show min 8 (s.idx.toNat - 6) = s.idx.toNat - 6 by omega, List.take_succ_eq_append_getElem hlen,
      List.foldl_append, ← hbyte]
    rfl
  · next hsum => rw [show min 8 (s.idx.toNat + 1 - 6) = min 8 (s.idx.toNat - 6) by omega]

/-- Related states have the same byte on the port in SEND: up to offset 13 CK is not read, and from there on the two sums
are equal. -/
theorem StreamRel.frameByte_eq {s t : State} (h : StreamRel s t) (hp : s.phase = .send) :
    frameByte t s.idx = frameByte s s.idx := by
  obtain ⟨ht, hsend⟩ := h
  obtain ⟨hck, hsum⟩ := hsend hp
  by_cases hlt : s.idx < 14#4
  · rw [ht, frameByte_withCk_of_lt hlt]
  · have heq : t.ck = s.ck := by rw [hsum, streamedCk_eq_checksum (BitVec.not_lt.mp hlt), hck]
    rw [ht, heq]

theorem StreamRel.outputs_eq {s t : State} (h : StreamRel s t) : outputs s = outputs t := by
  have hphase : t.phase = s.phase := by rw [h.1]
  have hidx : t.idx = s.idx := by rw [h.1]
  by_cases hp : s.phase = .send
  · simp [outputs, busy, hphase, hidx, hp, h.frameByte_eq hp]
  · simp [outputs, busy, hphase, hidx, hp]

/-- EMIT reads CK only in the byte it hands over. -/
theorem stepEmit_withCk {s : State} {ck : Half} (h : frameByte { s with ck := ck } s.idx = frameByte s s.idx) :
    stepEmit { s with ck := ck } = { stepEmit s with ck := ck } := by
  rcases offset_lt_or_last s.idx with hi | hi
  · rw [stepEmit_of_lt hi, stepEmit_of_lt (s := { s with ck := ck }) hi, h]
  · rw [stepEmit_of_last hi, stepEmit_of_last (s := { s with ck := ck }) hi, h]

theorem stepEmitStreaming_eq (s : State) :
    stepEmitStreaming s = { stepEmit s with
      ck := if 6#4 ≤ s.idx ∧ s.idx ≤ 13#4 then s.ck + zext16 (frameByte s s.idx) else s.ck } := by
  unfold stepEmitStreaming
  split
  · rfl
  · rw [← stepEmit_ck s]

theorem streamRel_stepAccept {s t : State} (c : Command) (h : StreamRel s t) :
    StreamRel (stepAccept c s) (stepAcceptStreaming c t) := by
  refine ⟨?_, fun _ => ⟨stepAccept_checksum c s, rfl⟩⟩
  rw [h.1]
  rfl

theorem streamRel_stepEmit {s t : State} (h : StreamRel s t) (hp : s.phase = .send) :
    StreamRel (stepEmit s) (stepEmitStreaming t) := by
  have hbyte : frameByte t s.idx = frameByte s s.idx := h.frameByte_eq hp
  obtain ⟨ht, hsend⟩ := h
  obtain ⟨hck, hsum⟩ := hsend hp
  have hidx : t.idx = s.idx := by rw [ht]
  have hemit : stepEmit t = { stepEmit s with ck := t.ck } := by
    rw [ht] at hbyte ⊢
    exact stepEmit_withCk hbyte
  rw [stepEmitStreaming_eq, hemit, hidx, hbyte, hsum]
  refine ⟨rfl, fun hnext => ⟨by simpa using hck, ?_⟩⟩
  rcases offset_lt_or_last s.idx with hi | hi
  · exact (streamedCk_stepEmit hi).symm
  · simp [stepEmit_of_last hi] at hnext

/-- Where the command in flight ends, or none is, nothing is asked of CK. -/
theorem streamRel_of_not_send {s : State} (hp : s.phase ≠ .send) (ck : Half) : StreamRel s { s with ck := ck } :=
  ⟨rfl, fun h => absurd h hp⟩

theorem streamRel_takeStep {s t : State} (p : Pins) (h : StreamRel s t) :
    StreamRel (takeStep p s) (takeStepStreaming p t) := by
  have hphase : t.phase = s.phase := by rw [h.1]
  unfold takeStep takeStepStreaming
  rw [hphase]
  cases hsel : selectStep p s.phase with
  | reset =>
    rw [h.1]
    exact streamRel_of_not_send (by simp) (stepReset s).ck
  | accept => exact streamRel_stepAccept p.command h
  | drop => exact h
  | emit => exact streamRel_stepEmit h (phase_of_selectStep_emit hsel)
  | complete =>
    rw [h.1]
    exact streamRel_of_not_send (by simp) t.ck
  | hold => exact h

theorem nextPins_withCk (s : State) (ck : Half) : nextPins { s with ck := ck } = { nextPins s with ck := ck } := by
  unfold nextPins
  dsimp only
  split <;> rfl

theorem streamRel_nextPins {s t : State} (h : StreamRel s t) : StreamRel (nextPins s) (nextPins t) := by
  obtain ⟨ht, hsend⟩ := h
  refine ⟨?_, fun hp => ?_⟩
  · rw [ht, nextPins_withCk]
  · simpa [State.command, streamedCk, frameSpace_eq] using hsend (by simpa using hp)

theorem streamRel_edge {s t : State} (h : StreamRel s t) : StreamRel (edge s) (edgeStreaming t) := by
  have hpins : t.pins = s.pins := by rw [h.1]
  unfold edge edgeStreaming
  rw [hpins]
  exact streamRel_nextPins (streamRel_takeStep s.pins h)

theorem streamRel_edges (k : Nat) {s t : State} (h : StreamRel s t) : StreamRel (edges k s) (edgesStreaming k t) := by
  induction k generalizing s t with
  | zero => exact h
  | succ k ih => exact ih (streamRel_edge h)

/-- Settles O44: every edge keeps the relation, and related states show the same at the ports. -/
theorem streamingVariantIsTheSameMachine : Obligations.StreamingVariantIsTheSameMachine := by
  intro k s t h
  have hrel : StreamRel (edges k s) (edgesStreaming k t) := streamRel_edges k h
  exact ⟨hrel.outputs_eq, by rw [hrel.1], by rw [hrel.1], hrel⟩

end Sys2Proof.Machine

/-! ### The client software (42_host_clients.md) -/

namespace Sys2Proof.Machine

/-! #### A client operation between calls -/

/-- The next state from what the operation leaves and performs. -/
theorem step_client_effect {s : State} {op : ClientOp} {rest actions : List HostAction} {b : BlinkState}
    (hb : busy s = false) (ha : s.agenda = .client op :: rest) (hc : clockInOrder op s.blink = true)
    (heffect : clientEffect op s.blink = (b, actions)) :
    step s = .next { s with blink := b, agenda := actions ++ rest } := by
  rw [step_client hb ha hc, heffect]

/-- An operation that leaves BlinkState alone changes the agenda only. -/
theorem step_client_actions {s : State} {op : ClientOp} {rest actions : List HostAction} (hb : busy s = false)
    (ha : s.agenda = .client op :: rest) (hc : clockInOrder op s.blink = true)
    (heffect : clientEffect op s.blink = (s.blink, actions)) : step s = .next { s with agenda := actions ++ rest } :=
  step_client_effect hb ha hc heffect

/-! #### The actions of the blocking helpers in closed form -/

theorem flashActions_eq (colour : Byte) (onMs offMs n : Nat) :
    flashActions colour onMs offMs n =
      (List.replicate n [sendColour colour, .wait onMs, sendOff, .wait offMs]).flatten := by
  induction n with
  | zero => rfl
  | succ n ih => rw [flashActions, ih, List.replicate_succ, List.flatten_cons]

theorem breatheActions_eq (colour : Byte) (perCycleMs n : Nat) :
    breatheActions colour perCycleMs n =
      (List.replicate n [sendCommand (breatheCommand colour 1#8), .wait perCycleMs]).flatten := by
  induction n with
  | zero => rfl
  | succ n ih => rw [breatheActions, ih, List.replicate_succ, List.flatten_cons]

/-- The wait after the last action, where the open `performed` says that there is one (log 14). -/
def lastWait (performed : Bool) (ms : Nat) : List HostAction := if performed then [.wait ms] else []

theorem lastWait_cases (performed : Bool) (ms : Nat) :
    lastWait performed ms = [] ∨ lastWait performed ms = [.wait ms] := by
  cases performed with
  | false => exact .inl rfl
  | true => exact .inr rfl

theorem fixedCycleActions_succ (colour : Byte) (onMs offMs n : Nat) :
    fixedCycleActions colour onMs offMs (n + 1) =
      (List.replicate n [sendColour colour, .wait onMs, sendOff, .wait offMs]).flatten ++
        [sendColour colour, .wait onMs, sendOff] ++ lastWait Config.fixedCyclesLastWait offMs := by
  induction n with
  | zero => rfl
  | succ n ih => simp only [fixedCycleActions, ih, List.replicate_succ, List.flatten_cons, List.append_assoc]

theorem colorCycleActions_append (stepMs : Nat) (colours : List Byte) (last : Byte) :
    colorCycleActions stepMs (colours ++ [last]) =
      colours.flatMap (fun c => [sendColour c, .wait stepMs]) ++ [sendColour last] ++
        lastWait Config.colorCycleLastWait stepMs := by
  induction colours with
  | nil => rfl
  | cons c cs ih =>
    have hcons : colorCycleActions stepMs (c :: (cs ++ [last])) =
        sendColour c :: .wait stepMs :: colorCycleActions stepMs (cs ++ [last]) := by
      cases cs <;> rfl
    rw [List.cons_append, hcons, ih]
    rfl

/-- Settles O51: each helper puts its actions, in closed form, before the rest. -/
theorem blockingHelpersRunTheirSequences : Obligations.BlockingHelpersRunTheirSequences := by
  intro s rest colour last colours onMs offMs n hb
  refine ⟨fun ha => ?_, fun ha => ?_, fun ha => ?_, fun ha => ?_⟩
  · exact step_client_actions hb ha rfl (congrArg (s.blink, ·) (flashActions_eq colour onMs offMs n))
  · exact ⟨breatheCommand colour 1#8, rfl, rfl,
      step_client_actions hb ha rfl (congrArg (s.blink, ·) (breatheActions_eq colour onMs (n + 1)))⟩
  · exact ⟨_, _, lastWait_cases _ _,
      step_client_effect hb ha rfl (congrArg (_, ·) (fixedCycleActions_succ colour onMs offMs n))⟩
  · exact ⟨_, lastWait_cases _ _,
      step_client_actions hb ha rfl (congrArg (s.blink, ·) (colorCycleActions_append onMs colours last))⟩

/-! #### The calls among the actions -/

@[simp] theorem callsOf_nil : callsOf [] = [] := rfl

@[simp] theorem callsOf_wait (ms : Nat) (l : List HostAction) : callsOf (.wait ms :: l) = callsOf l := rfl

@[simp] theorem callsOf_sendCommand (c : Command) (l : List HostAction) :
    callsOf (sendCommand c :: l) = sendCommand c :: callsOf l := rfl

@[simp] theorem callsOf_sendColour (colour : Byte) (l : List HostAction) :
    callsOf (sendColour colour :: l) = sendColour colour :: callsOf l := rfl

@[simp] theorem callsOf_sendOff (l : List HostAction) : callsOf (sendOff :: l) = sendOff :: callsOf l := rfl

@[simp] theorem callsOf_append (l l' : List HostAction) : callsOf (l ++ l') = callsOf l ++ callsOf l' :=
  List.filter_append l l'

@[simp] theorem callsOf_lastWait (performed : Bool) (ms : Nat) : callsOf (lastWait performed ms) = [] := by
  cases performed <;> rfl

/-- What is repeated is repeated with its waits left out. -/
theorem callsOf_flatten_replicate (n : Nat) (l : List HostAction) :
    callsOf (List.replicate n l).flatten = (List.replicate n (callsOf l)).flatten := by
  rw [callsOf, List.filter_flatten, List.map_replicate, ← callsOf]

theorem callsOf_flashActions (colour : Byte) (onMs offMs n : Nat) :
    callsOf (flashActions colour onMs offMs n) = (List.replicate n [sendColour colour, sendOff]).flatten := by
  simp [flashActions_eq, callsOf_flatten_replicate]

theorem callsOf_fixedCycleActions (colour : Byte) (onMs offMs n : Nat) :
    callsOf (fixedCycleActions colour onMs offMs n) = (List.replicate n [sendColour colour, sendOff]).flatten := by
  cases n with
  | zero => rfl
  | succ n => simp [fixedCycleActions_succ, callsOf_flatten_replicate, List.replicate_succ']

theorem callsOf_colorCycleActions (stepMs : Nat) (colours : List Byte) :
    callsOf (colorCycleActions stepMs colours) = colours.map sendColour := by
  induction colours using colorCycleActions.induct with
  | case1 => rfl
  | case2 c => exact congrArg (sendColour c :: ·) (callsOf_lastWait _ _)
  | case3 c c' cs ih => simp [colorCycleActions, ih]

theorem callsOf_breatheActions (colour : Byte) (perCycleMs n : Nat) :
    callsOf (breatheActions colour perCycleMs n) = List.replicate n (sendCommand (breatheCommand colour 1#8)) := by
  simp [breatheActions_eq, callsOf_flatten_replicate]

/-- Settles O49, helper by helper. -/
theorem helpersIssueTheirCommands : Obligations.HelpersIssueTheirCommands := by
  intro colour onMs offMs n colours b
  refine ⟨callsOf_fixedCycleActions colour onMs offMs n, callsOf_flashActions colour onMs offMs n,
    callsOf_colorCycleActions onMs colours, fun hn => ?_, ?_, ?_, ?_⟩
  · have hactions : (clientEffect (.breathingFixedCycles colour onMs n) b).2 = breatheActions colour onMs n :=
      if_neg hn.ne'
    exact ⟨breatheCommand colour 1#8, rfl, rfl, by rw [hactions, callsOf_breatheActions]; rfl⟩
  · exact ⟨breatheCommand colour 0#8, rfl, rfl, rfl⟩
  · exact ⟨modeCommand .fadeIn (Config.fadeInOperands colour), rfl, rfl⟩
  · exact ⟨modeCommand .fadeOut (Config.fadeOutOperands colour), rfl, rfl⟩

/-! #### Who writes BlinkState (R108) -/

@[simp] theorem issue_blink (c : Command) (s : State) : (issue c s).blink = s.blink := by
  by_cases hw : s.pins.rst = true ∨ s.phase ≠ .idle
  · simp [issue_waits hw, waitToIssue]
  · obtain ⟨hr, hp⟩ : s.pins.rst = false ∧ s.phase = .idle := by simpa using hw
    rw [issue_consumed hr hp]
    exact untilIdle_induct (P := fun u => u.blink = s.blink) (fun u _ hu => by simpa using hu) _ _ (by simp [consume])

/-- The operations that can leave another BlinkState. -/
theorem op_of_clientEffect_blink_ne {op : ClientOp} {b : BlinkState} (h : (clientEffect op b).1 ≠ b) :
    (∃ colour onMs offMs now, op = .start colour onMs offMs now) ∨ op = .stop ∨ (∃ now, op = .poll now) ∨
      (∃ colour onMs offMs n, op = .runFixedCycles colour onMs offMs n) := by
  cases op with
  | start colour onMs offMs now => exact .inl ⟨colour, onMs, offMs, now, rfl⟩
  | stop => exact .inr (.inl rfl)
  | poll now => exact .inr (.inr (.inl ⟨now, rfl⟩))
  | runFixedCycles colour onMs offMs n => exact .inr (.inr (.inr ⟨colour, onMs, offMs, n, rfl⟩))
  | _ => exact absurd rfl h

/-- Settles O52: an edge and a call leave BlinkState alone, so the step is a client operation between calls. -/
theorem blinkStateChangesByItsOperationsOnly : Obligations.BlinkStateChangesByItsOperationsOnly := by
  intro s t h hne
  rcases step_cases h with ⟨rest, -, rfl⟩ | ⟨frame, rest, i, -, -, rfl⟩ | ⟨op, rest, ha, hb, -, rfl⟩
  · simp at hne
  · simp at hne
  · exact ⟨op, rest, ha, hb, rfl, op_of_clientEffect_blink_ne hne⟩

/-! #### The blink scheduler (R110 to R114) -/

/-- Settles O45: `start` makes one call and does not depend on BlinkState. -/
theorem blinkStartSendsColour : Obligations.BlinkStartSendsColour := fun _ _ _ _ _ _ hb ha =>
  step_client_effect hb ha rfl rfl

/-- The duration of the phase the scheduler is in. -/
def phaseMs (b : BlinkState) : Nat :=
  match b.phase with
  | .on => b.onMs
  | .off => b.offMs

theorem phaseMs_on {b : BlinkState} (hp : b.phase = .on) : phaseMs b = b.onMs := by simp [phaseMs, hp]

theorem phaseMs_off {b : BlinkState} (hp : b.phase = .off) : phaseMs b = b.offMs := by simp [phaseMs, hp]

/-- The other phase, which begins at `now`, with its one command (R112). -/
def blinkToggle (now : Timestamp) (b : BlinkState) : BlinkState × List HostAction :=
  match b.phase with
  | .on => ({ b with phase := .off, phaseStart := now }, [sendOff])
  | .off => ({ b with phase := .on, phaseStart := now }, [sendColour b.colour])

theorem blinkToggle_on {b : BlinkState} (hp : b.phase = .on) (now : Timestamp) :
    blinkToggle now b = ({ b with phase := .off, phaseStart := now }, [sendOff]) := by simp [blinkToggle, hp]

theorem blinkToggle_off {b : BlinkState} (hp : b.phase = .off) (now : Timestamp) :
    blinkToggle now b = ({ b with phase := .on, phaseStart := now }, [sendColour b.colour]) := by
  simp [blinkToggle, hp]

/-- A poll toggles an active scheduler whose phase is over, and does nothing else (R112). -/
theorem blinkPoll_eq (now : Timestamp) (b : BlinkState) :
    blinkPoll now b = if b.active = true ∧ phaseMs b ≤ elapsed b now then blinkToggle now b else (b, []) := by
  cases ha : b.active with
  | false => simp [blinkPoll, ha]
  | true =>
    cases hp : b.phase with
    | on => simp [blinkPoll, ha, hp, phaseMs_on hp, blinkToggle_on hp]
    | off => simp [blinkPoll, ha, hp, phaseMs_off hp, blinkToggle_off hp]

/-- Where the Clock contract is kept, no difference is cut off at zero (R112, R123). -/
theorem le_elapsed_iff {b : BlinkState} {now : Timestamp} (h : b.phaseStart ≤ now) (ms : Nat) :
    ms ≤ elapsed b now ↔ b.phaseStart.toNat + ms ≤ now.toNat := by
  have hle : b.phaseStart.toNat ≤ now.toNat := h
  rw [elapsed]
  omega

theorem clockInOrder_poll {now : Timestamp} {b : BlinkState} (h : b.active = false ∨ b.phaseStart ≤ now) :
    clockInOrder (.poll now) b = true := by
  simpa [clockInOrder] using h

theorem step_poll_inactive {s : State} {rest : List HostAction} {now : Timestamp} (hb : busy s = false)
    (ha : s.agenda = .client (.poll now) :: rest) (h : s.blink.active = false) :
    step s = .next { s with agenda := rest } :=
  step_client_actions hb ha (clockInOrder_poll (.inl h)) ((blinkPoll_eq _ _).trans (if_neg (by simp [h])))

theorem step_poll_early {s : State} {rest : List HostAction} {now : Timestamp} (hb : busy s = false)
    (ha : s.agenda = .client (.poll now) :: rest) (hle : s.blink.phaseStart ≤ now)
    (h : now.toNat < s.blink.phaseStart.toNat + phaseMs s.blink) : step s = .next { s with agenda := rest } :=
  step_client_actions hb ha (clockInOrder_poll (.inr hle))
    ((blinkPoll_eq _ _).trans (if_neg (by rw [le_elapsed_iff hle]; omega)))

theorem step_poll_due {s : State} {rest : List HostAction} {now : Timestamp} (hb : busy s = false)
    (ha : s.agenda = .client (.poll now) :: rest) (hactive : s.blink.active = true) (hle : s.blink.phaseStart ≤ now)
    (h : s.blink.phaseStart.toNat + phaseMs s.blink ≤ now.toNat) :
    step s = .next { s with
      blink := (blinkToggle now s.blink).1, agenda := (blinkToggle now s.blink).2 ++ rest } :=
  step_client_effect hb ha (clockInOrder_poll (.inr hle))
    ((blinkPoll_eq _ _).trans (if_pos ⟨hactive, (le_elapsed_iff hle _).mpr h⟩))

/-- Settles O46: `stop` makes one call from any BlinkState, and a poll while inactive does nothing. -/
theorem blinkStopSendsOff : Obligations.BlinkStopSendsOff :=
  ⟨fun _ _ hb ha => step_client_effect hb ha rfl rfl, fun _ _ _ hb hactive ha => step_poll_inactive hb ha hactive⟩

/-- Settles O47, by the phase and whether it is over. -/
theorem blinkPollTogglesWhenDue : Obligations.BlinkPollTogglesWhenDue := by
  intro s rest now hb ha
  refine ⟨step_poll_inactive hb ha, fun hactive hle hp => ?_, fun hactive hle hp => ?_⟩
  · rw [← phaseMs_on hp]
    exact ⟨fun h => by rw [step_poll_due hb ha hactive hle h, blinkToggle_on hp]; rfl, step_poll_early hb ha hle⟩
  · rw [← phaseMs_off hp]
    exact ⟨fun h => by rw [step_poll_due hb ha hactive hle h, blinkToggle_off hp]; rfl, step_poll_early hb ha hle⟩

theorem blinkToggle_length (now : Timestamp) (b : BlinkState) : (blinkToggle now b).2.length = 1 := by
  cases hp : b.phase with
  | on => rw [blinkToggle_on hp]; rfl
  | off => rw [blinkToggle_off hp]; rfl

/-- The new phase has lasted no time at `now`, so it is not over. -/
theorem blinkPoll_blinkToggle {now : Timestamp} {b : BlinkState} (hon : 0 < b.onMs) (hoff : 0 < b.offMs) :
    blinkPoll now (blinkToggle now b).1 = ((blinkToggle now b).1, []) := by
  rw [blinkPoll_eq, if_neg]
  rintro ⟨-, hdue⟩
  cases hp : b.phase with
  | on =>
    simp [blinkToggle_on hp, phaseMs_off, elapsed] at hdue
    omega
  | off =>
    simp [blinkToggle_off hp, phaseMs_on, elapsed] at hdue
    omega

/-- Settles O48: a poll that toggled is followed by a fresh phase, one that did not by the same poll. -/
theorem blinkPollNeverBursts : Obligations.BlinkPollNeverBursts := by
  intro now b
  have hpoll := blinkPoll_eq now b
  split at hpoll
  · rw [hpoll]
    exact ⟨(blinkToggle_length now b).le, blinkPoll_blinkToggle⟩
  · simp [hpoll]

end Sys2Proof.Machine

/-! ### What stops the machine (60_exceptions.md) -/

namespace Sys2Proof.Machine

/-- Bytes that are no frame are no command (R63; log 9). -/
theorem step_send_refused {s : State} {frame : List Byte} {rest : List HostAction} {why : DecodeError}
    (ha : s.agenda = .send frame :: rest) (hdecode : decode frame = .error why) :
    step s = .refused (.notACommand why) := by
  simp [step, runAgenda, ha, runCall, hdecode]

/-- Settles O36, by the host's next action: a call stops only where its bytes do not decode, a client operation only
between calls and out of the Clock contract, and everything else is a clock edge. -/
theorem onlyTheHostStopsTheMachine : Obligations.OnlyTheHostStopsTheMachine := by
  refine ⟨fun i s => ⟨_, exec_eq i s⟩, fun s => ?_⟩
  match ha : s.agenda with
  | [] => exact .inl ⟨_, step_no_action ha⟩
  | .send frame :: rest =>
    cases hdecode : decode frame with
    | ok i => exact .inl ⟨_, (stepRunsTheDecodedCall s frame rest i ha hdecode).trans (exec_eq i _)⟩
    | error why => exact .inr (.inl ⟨frame, rest, why, rfl, hdecode, step_send_refused ha hdecode⟩)
  | .wait ms :: rest =>
    cases hb : busy s with
    | true => exact .inl ⟨_, step_wait_busy ha hb⟩
    | false => exact .inl ⟨_, step_wait ha hb⟩
  | .client op :: rest =>
    cases hb : busy s with
    | true => exact .inl ⟨_, step_client_busy ha hb⟩
    | false =>
      cases hc : clockInOrder op s.blink with
      | true => exact .inl ⟨_, step_client hb ha hc⟩
      | false =>
        obtain ⟨now, rfl, hactive, hlt⟩ := clockInOrder_eq_false hc
        exact .inr (.inr ⟨now, rest, rfl, rfl, hactive, hlt, step_client_refused hb ha hc⟩)

end Sys2Proof.Machine

/-! ### Reset in mid-command, and the account at the start of a run (70_reset_and_hazards.md) -/

namespace Sys2Proof

/-- A proper prefix carries no mark: the mark stands on the final byte only (R36). -/
theorem markLast_take_unmarked {bs : List Byte} {k : Nat} (hk : k < bs.length) :
    ∀ q ∈ (markLast bs).take k, q.2 = false := by
  intro q hq
  obtain ⟨j, hj, rfl⟩ := List.mem_take_iff_getElem.mp hq
  have hlt : j + 1 < bs.length := by omega
  rw [markLast_getElem bs j (by omega)]
  exact beq_false_of_ne hlt.ne

namespace Machine

/-- An edge with `rst` = 1 is a RESET step with the inputs passing (R140). -/
theorem edge_reset {s : State} (hr : s.pins.rst = true) : edge s = nextPins (stepReset s) := by
  rw [edge, takeStep_reset hr]

/-- Settles O3: RESET leaves SINK_LOG as it is, so by the invariant it still ends in what the sink has of the frame in
flight, and in SEND, where IDX is at most 15, that is a proper prefix. -/
theorem resetInMidFrameTruncates : Obligations.ResetInMidFrameTruncates := by
  intro s hinv hr
  have hlog : (edge s).sinkLog = s.sinkLog := by simp [edge_reset hr]
  obtain ⟨before, htail⟩ := hinv.log_tail
  refine ⟨hlog, by simp [edge_reset hr], by simp [edge_reset hr], fun hp => ?_, fun hp => ?_⟩
  · exact ⟨before, by rw [hlog, ← htail, inFlight_send hp], markLast_take_unmarked s.idx.isLt⟩
  · exact ⟨before, by rw [hlog, ← htail, inFlight_flush hp]⟩

/-- Settles O40: no command has completed and the reset state has none in flight. -/
theorem accountingAtReset : Obligations.AccountingAtReset := by
  have hnone : State.reset.inFlight = [] := inFlight_idle rfl
  exact ⟨by rw [hnone]; rfl, rfl⟩

end Machine

end Sys2Proof

/-! ### A word of the opcode table as the host's next call (log 5, 10) -/

namespace Sys2Proof

/-- A word of the opcode table has a row exactly when its 16 bytes decode to one (R50, R63). -/
theorem decodeTableWord_eq_some_iff {nbits w : Nat} {i : Instr} :
    decodeTableWord nbits w = some i ↔ decode (wordBytes (BitVec.ofNat 128 (w % 2 ^ nbits))) = .ok i := by
  unfold decodeTableWord
  cases decode (wordBytes (BitVec.ofNat 128 (w % 2 ^ nbits))) with
  | ok j => simp
  | error why => simp

namespace Machine

/-- The placed word stands before the host's other actions. -/
theorem withFetchWord_agenda (s : State) (nbits w : Nat) :
    (s.withFetchWord nbits w).agenda = .send (wordBytes (BitVec.ofNat 128 (w % 2 ^ nbits))) :: s.agenda := rfl

/-- Settles O35: the placed word is the head call, and taking it off again gives back the agenda of `s`. -/
theorem placedWordRunsNext : Obligations.PlacedWordRunsNext := fun s nbits w i h =>
  stepRunsTheDecodedCall (s.withFetchWord nbits w) _ s.agenda i (withFetchWord_agenda s nbits w)
    (decodeTableWord_eq_some_iff.mp h)

end Machine

end Sys2Proof
